-- ==== Sys2Proof/Word.lean ====
section
/-! DEFINITION. The widths the spec gives its values (00_scope.md section 5, rule R3; 00_scope.md section 6.1). Every
value of this machine is unsigned. Counts, sizes and byte addresses are natural numbers, since the spec computes them
"in `nat`" (rules R11, R47, R52). -/

namespace Sys2Proof

/-- A byte of memory or of a register slot (rule R22). -/
abbrev Byte := BitVec 8

/-- An instruction word, `INSTR_BITS` = 32 bits (rules R3, R34). -/
abbrev Word := BitVec 32

/-- The payload, bits 23 to 0 of an instruction word (rule R35). -/
abbrev Payload := BitVec 24

/-- A 64-bit value: the program counter (rule R10) or the value of a register slot (rule R8). -/
abbrev U64 := BitVec 64

end Sys2Proof
end

