-- ==== Sys2Proof/Config.lean ====
section
/-! DEFINITION. The construction parameters of the hardware and the values of the reference configuration (rule R3,
decision D4 of 92_eei_decisions.md). They are fixed at construction and never change (rule R4 (d)). The legality check
of rule R4 is `Sys2Proof.Machine.Config.legal` in Machine/Ops.lean. There is no free value: the spec gives every value
of the machine, so this file holds no constant without a body. -/

namespace Sys2Proof

/-- What the host chooses when it constructs a machine (rules R3, R82): the length of memory, the number of register
slots and the width of a slot, all counted in the units the spec uses. -/
structure Config where
  /-- `MEM_BYTES`: the length of memory in bytes. -/
  memBytes : Nat
  /-- `NREGS`: the number of register slots. -/
  nregs : Nat
  /-- `REG_BYTES`: the bytes of one register slot. -/
  regBytes : Nat
deriving DecidableEq, Repr

/-- The reference configuration: 1024 bytes of memory, 4 register slots of 8 bytes (rule R3). -/
def Config.reference : Config := { memBytes := 1024, nregs := 4, regBytes := 8 }

/-- `INSTR_BYTES`: bytes per instruction (rules R3, R34). -/
abbrev instrBytes : Nat := 4

end Sys2Proof
end

