-- ==== Sys2Proof/Syntax.lean ====
section
/-! DEFINITION. The instructions: the six classes the decoder answers with (rule R41), one constructor per mnemonic of
spec/opcode_table.json. The seven `UNKNOWN` rows of the table are one constructor, because they are "a device of the
table format" and "the document makes no distinction among unknown opcodes" (rule R42); its `opcode` field keeps them
apart as words. Every constructor carries its payload, so that no bit of a word is lost in decoding; no instruction
reads it (rule R38). -/

namespace Sys2Proof

/-- An instruction of siscemu CORE: its class and every bit of its word that the class does not fix. -/
inductive Instr where
  /-- `NOOP`, opcode byte `0x00` (rule R55). -/
  | noop (payload : Payload)
  /-- `HALT`, opcode byte `0x01` (rule R59). -/
  | halt (payload : Payload)
  /-- `MOVE`, opcode byte `0x02` (rule R56). -/
  | move (payload : Payload)
  /-- `LOAD`, opcode byte `0x03` (rule R57). -/
  | load (payload : Payload)
  /-- `JUMP`, opcode byte `0x04` (rule R60). -/
  | jump (payload : Payload)
  /-- `UNKNOWN`, any opcode byte `0x05` to `0xFF` (rules R40, R58). -/
  | unknown (opcode : Byte) (payload : Payload)
deriving DecidableEq, Repr

end Sys2Proof
end

