-- ==== Sys2Proof/WellFormed.lean ====
section
/-! DEFINITION. Which terms of `Instr` stand for words. There is one check: an `UNKNOWN` instruction carries one of the
251 opcode bytes that name no instruction (rule R40). A payload may hold any 24 bits (rule R38). -/

namespace Sys2Proof

/-- `i` stands for exactly the words that decode to it. The only ill-formed terms are `unknown` with an opcode byte
`0x00` to `0x04`: such a word decodes to the named instruction of that byte (rules R40, R41). -/
def Instr.wf : Instr → Bool
  | .noop _ => true
  | .halt _ => true
  | .move _ => true
  | .load _ => true
  | .jump _ => true
  | .unknown opcode _ => decide (5 ≤ opcode.toNat)

end Sys2Proof
end

