-- ==== Sys2Proof/Decode.lean ====
section
/-! DEFINITION. Byte order, the decoder and the encoder (30_encoding.md rules R34 to R43). The decoder is total over
all words (rule R41); the only thing it can reject is a byte sequence too short to hold an instruction, which the
machine never gives it (rule R47 guards the fetch). -/

namespace Sys2Proof

/-- The little-endian value of a byte sequence, the sum of byte `k` times `2^(8k)` (rules R8, R23; PRESUMED by the spec, G1,
log entry 16). -/
def leValue : List Byte → Nat
  | [] => 0
  | b :: rest => b.toNat + 256 * leValue rest

/-- The `n` little-endian bytes of `v`, the low `8n` bits (rule R43 for words, rule R8 for register slots). -/
def leBytes : Nat → Nat → List Byte
  | 0, _ => []
  | n + 1, v => BitVec.ofNat 8 v :: leBytes n (v / 256)

/-- The 32-bit word of four bytes, lowest address first (rule R36). -/
def wordOfBytes (bytes : List Byte) : Word := BitVec.ofNat 32 (leValue bytes)

/-- `opcode = (word >> 24) & 0xFF` (rules R35, R37). -/
def opcodeOf (w : Word) : Byte := w.extractLsb' 24 8

/-- The payload, `word[23:0]` (rule R35). -/
def payloadOf (w : Word) : Payload := w.extractLsb' 0 24

/-- `decode` of rule R41: the class of a word, selected by its opcode byte alone. -/
def decodeWord (w : Word) : Instr :=
  match (opcodeOf w).toNat with
  | 0x00 => .noop (payloadOf w)
  | 0x01 => .halt (payloadOf w)
  | 0x02 => .move (payloadOf w)
  | 0x03 => .load (payloadOf w)
  | 0x04 => .jump (payloadOf w)
  | _ => .unknown (opcodeOf w) (payloadOf w)

/-- Why a byte sequence is no instruction. -/
inductive DecodeError where
  /-- Fewer than `INSTR_BYTES` bytes (rule R34). No word is rejected: "there is no illegal instruction" (rule R40). -/
  | truncated
deriving DecidableEq, Repr

/-- Decode the first four bytes of a sequence and answer the bytes that follow (rules R34, R36, R41). -/
def decodeBytes : List Byte → Except DecodeError (Instr × List Byte)
  | b0 :: b1 :: b2 :: b3 :: rest => .ok (decodeWord (wordOfBytes [b0, b1, b2, b3]), rest)
  | _ => .error .truncated

/-- The opcode byte of an instruction (rule R39; for `UNKNOWN`, the byte it carries, rule R40). -/
def Instr.opcode : Instr → Byte
  | .noop _ => 0x00
  | .halt _ => 0x01
  | .move _ => 0x02
  | .load _ => 0x03
  | .jump _ => 0x04
  | .unknown opcode _ => opcode

/-- The payload of an instruction (rule R38). -/
def Instr.payload : Instr → Payload
  | .noop p => p
  | .halt p => p
  | .move p => p
  | .load p => p
  | .jump p => p
  | .unknown _ p => p

/-- The mnemonic of an instruction's class (rules R39, R40). -/
def Instr.mnemonic : Instr → String
  | .noop _ => "NOOP"
  | .halt _ => "HALT"
  | .move _ => "MOVE"
  | .load _ => "LOAD"
  | .jump _ => "JUMP"
  | .unknown _ _ => "UNKNOWN"

/-- A row of the machine-readable opcode map: a word `w` belongs to it when `w & mask = pattern` (rule R42). -/
structure OpcodeRow where
  mnemonic : String
  pattern : Word
  mask : Word
deriving DecidableEq, Repr

/-- The word belongs to the row (rule R42). -/
def OpcodeRow.covers (row : OpcodeRow) (w : Word) : Bool := w &&& row.mask == row.pattern

/-- The twelve rows of spec/opcode_table.json (rule R42). The decoder does not use them: that they agree with it is a
statement. -/
def opcodeTable : List OpcodeRow :=
  [ ⟨"NOOP", 0x00000000, 0xFF000000⟩, ⟨"HALT", 0x01000000, 0xFF000000⟩, ⟨"MOVE", 0x02000000, 0xFF000000⟩,
    ⟨"LOAD", 0x03000000, 0xFF000000⟩, ⟨"JUMP", 0x04000000, 0xFF000000⟩, ⟨"UNKNOWN", 0x05000000, 0xFF000000⟩,
    ⟨"UNKNOWN", 0x06000000, 0xFE000000⟩, ⟨"UNKNOWN", 0x08000000, 0xF8000000⟩, ⟨"UNKNOWN", 0x10000000, 0xF0000000⟩,
    ⟨"UNKNOWN", 0x20000000, 0xE0000000⟩, ⟨"UNKNOWN", 0x40000000, 0xC0000000⟩, ⟨"UNKNOWN", 0x80000000, 0x80000000⟩ ]

/-- `opcode << 24 | payload`: the word with these two fields (rules R35, R43). -/
def wordOfFields (opcode : Byte) (payload : Payload) : Word := opcode.setWidth 32 <<< 24 ||| payload.setWidth 32

/-- The word of an instruction (rule R43). -/
def encode (i : Instr) : Word := wordOfFields i.opcode i.payload

/-- The four bytes of an instruction in memory, lowest address first (rules R36, R43). -/
def encodeBytes (i : Instr) : List Byte := leBytes instrBytes (encode i).toNat

/-- The instruction the decoder reads from the word whose bits are `w`, numbered as spec/opcode_table.json numbers
them; `nbits` is how many bits the table gives, the bits above are zero. -/
def decodeTableWord (nbits w : Nat) : Option Instr :=
  match decodeBytes (leBytes instrBytes (w % 2 ^ nbits)) with
  | .ok (i, _) => some i
  | .error _ => none

end Sys2Proof
end

