-- ==== Sys2Proof/Machine/State.lean ====
section
/-! DEFINITION. The machine state, "exactly five elements and nothing else" (rule R6), the reasons a step can stop, and
the state after reset (rule R20). Memory and the register file carry their own lengths, "fixed at construction" (rules
R7, R19), so that one model runs every configuration of rule R3. -/

namespace Sys2Proof.Machine

/-- `run_state` (rule R15): `running` initially, `halted` terminally. -/
inductive RunState where
  | running
  | halted
deriving DecidableEq, Repr

/-- `memory` (rule R19): a fixed-length sequence of bytes, held as the list of its non-default bytes. `Memory.read` and
`Memory.wf` in Machine/Ops.lean say what the list means and what its canonical form is. -/
structure Memory where
  /-- `MEM_BYTES`, the length of memory. -/
  size : Nat
  /-- The listed bytes, addresses strictly rising. -/
  cells : List Host.Cell
deriving DecidableEq, Repr

/-- `registers` (rule R7): an ordered sequence of fixed-size byte buffers. -/
structure RegFile where
  /-- `REG_BYTES`, the length of one slot. -/
  width : Nat
  /-- The slots, slot 0 first; byte 0 of a slot first (rule R8). -/
  slots : List (List Byte)
deriving DecidableEq, Repr

/-- The machine state (rule R6). -/
structure State where
  /-- `memory` (rule R19). -/
  mem : Memory
  /-- `registers` (rule R7). -/
  regs : RegFile
  /-- `program_counter`, an instruction index (rule R10). -/
  pc : U64
  /-- `current_instruction`, the word fetched last (rule R14). -/
  ir : Word
  /-- `run_state` (rule R15). -/
  runState : RunState
deriving DecidableEq, Repr

/-- The failures of a step: "exactly one kind" (rule R70). -/
inductive Fault where
  /-- Raised by the bounds check of `step` before the fetch, by no instruction (rules R47, R71). Exact where
  `4 * pc` equals the length of memory; beyond it the spec's decision D1 names the same failure, where the original
  crashes: safe, since no later state exists either way (log entry 2). -/
  | endOfMemory
deriving DecidableEq, Repr

/-- The reasons the model gives no answer. -/
inductive Refusal where
  /-- An instruction without a meaning. No arm of `exec` answers it. Safe. -/
  | notModelled (mnemonic : String)
  /-- Raised by `step`, by `JUMP` and by construction for a configuration that breaks rule R4: "outside this spec: a
  model refuses it and claims nothing of it". Safe (log entry 1). -/
  | configOutsideSpec
  /-- Raised by a host access that rule R69 does not allow at that moment: a register preload after a driver was
  started, a start while a driver runs. Safe (log entry 9). -/
  | hostAccessNotAllowed
  /-- Raised by a host access to a register slot the configuration does not have (rule R69, "slot number"). Safe
  (log entry 9). -/
  | noSuchSlot
deriving DecidableEq, Repr

/-- The machine right after reset in the reference configuration (rules R3, R20, R82): every register byte `0x00`,
`pc = 0` (DEDUCED by the spec, D9, log entry 6), `ir = 0` (DESIGN CHOICE of the spec, D8, log entry 6), `Running`, and
memory with nothing listed. The memory image is the host's (rule R82); reset over
any image and configuration is `construct` in Machine/HostPort.lean. -/
def State.reset : State where
  mem := { size := Config.reference.memBytes, cells := [] }
  regs := { width := Config.reference.regBytes
            slots := List.replicate Config.reference.nregs (List.replicate Config.reference.regBytes 0x00) }
  pc := 0
  ir := 0x00000000
  runState := .running

end Sys2Proof.Machine
end

