-- ==== Sys2Proof/Machine/Ops.lean ====
section
/-! DEFINITION. The named operations over configuration, memory, registers, the latch and the program counter, and
raising the machine's one failure. Every read and write of a state element goes through these. -/

namespace Sys2Proof.Machine

/-! ### Configuration (rules R3, R4) -/

/-- Rule R4 (a), (b), (c): `MEM_BYTES` is a multiple of 4 and at most `2^64 - 4`, there is at least one register slot,
a slot has at least 8 bytes. -/
def configLegal (c : Config) : Bool :=
  decide (c.memBytes % instrBytes = 0) && decide (c.memBytes ≤ 2 ^ 64 - 4)
    && decide (1 ≤ c.nregs) && decide (8 ≤ c.regBytes)

/-- The configuration a state was constructed with: the lengths its memory and register file carry. -/
def State.config (s : State) : Config :=
  { memBytes := s.mem.size, nregs := s.regs.slots.length, regBytes := s.regs.width }

/-- The state is one of the spec's: its configuration is legal (rule R4) and every register slot has the fixed width
(rule R7). -/
def State.legal (s : State) : Bool :=
  configLegal s.config && s.regs.slots.all (fun slot => slot.length == s.regs.width)

/-- `MEM_WORDS = MEM_BYTES / 4` (rule R3). -/
def State.memWords (s : State) : Nat := s.mem.size / instrBytes

/-! ### Memory (20_memory.md) -/

/-- What a byte inside memory that no cell lists reads as: `0x00`, the byte that makes unset memory NOOPs
(rules R28, R84). DESIGN CHOICE (log entry 5): every image can be listed, so it decides only
the image of `State.reset`. -/
def unlistedByte : Byte := 0x00

/-- The byte the cells give an address. -/
def cellAt : List Host.Cell → Nat → Byte
  | [], _ => unlistedByte
  | (k, b) :: rest, a => if k = a then b else cellAt rest a

/-- List byte `b` at address `a`, keeping the canonical form: rising addresses, no entry equal to `unlistedByte`. -/
def putCell : List Host.Cell → Nat → Byte → List Host.Cell
  | [], a, b => if b = unlistedByte then [] else [(a, b)]
  | (k, c) :: rest, a, b =>
    if a < k then (if b = unlistedByte then (k, c) :: rest else (a, b) :: (k, c) :: rest)
    else if a = k then (if b = unlistedByte then rest else (a, b) :: rest)
    else (k, c) :: putCell rest a b

/-- The cells' addresses rise strictly from `lo` and stay below `hi`, and none holds `unlistedByte`. -/
def canonicalCells (hi : Nat) : Nat → List Host.Cell → Bool
  | _, [] => true
  | lo, (a, b) :: rest =>
    decide (lo ≤ a) && decide (a < hi) && decide (b ≠ unlistedByte) && canonicalCells hi (a + 1) rest

/-- The canonical form of memory: equal memories are equal data. -/
def Memory.wf (m : Memory) : Bool := canonicalCells m.size 0 m.cells

/-- `mem[a]` (rules R19, R22). `none` at or above `MEM_BYTES`: such addresses "do not exist" (rule R28). -/
def Memory.read (m : Memory) (a : Nat) : Option Byte :=
  if a < m.size then some (cellAt m.cells a) else none

/-- Store one byte. Used by the host's construction and by `State.withFetchWord` alone: no instruction writes memory
(rule R26). `none` at or above `MEM_BYTES`. -/
def Memory.write (m : Memory) (a : Nat) (b : Byte) : Option Memory :=
  if a < m.size then some { m with cells := putCell m.cells a b } else none

/-- The `n` bytes at `addr`, lowest address first, when `addr + n ≤ MEM_BYTES` (rule R23). -/
def Memory.readBytes (m : Memory) : Nat → Nat → Option (List Byte)
  | addr, 0 => if addr ≤ m.size then some [] else none
  | addr, n + 1 =>
    match m.read addr, m.readBytes (addr + 1) n with
    | some b, some rest => some (b :: rest)
    | _, _ => none

/-- `MemRead(addr, n)` (rule R23): the little-endian value of `n` bytes, defined when `addr + n ≤ MEM_BYTES`. -/
def Memory.memRead (m : Memory) (addr n : Nat) : Option Nat := (m.readBytes addr n).map leValue

/-- Store a byte sequence from `addr` upwards, all of it or nothing: `MemWrite` of 00_scope.md section 6.3, which "no
rule of this machine uses". -/
def Memory.writeBytes (m : Memory) : Nat → List Byte → Option Memory
  | _, [] => some m
  | addr, b :: rest =>
    match m.write addr b with
    | some m' => m'.writeBytes (addr + 1) rest
    | none => none

/-! ### Registers (rules R7 to R9) -/

/-- `x[i].byte[k]` (rule R8). -/
def RegFile.byte (r : RegFile) (i k : Nat) : Option Byte :=
  match r.slots[i]? with
  | some slot => slot[k]?
  | none => none

/-- `x[i]`, the little-endian value of bytes 0 to 7 of slot `i` (rule R8). `none` where the configuration has no such
slot or the slot has fewer than 8 bytes, which rule R4 (b) excludes for slot 0. -/
def RegFile.read (r : RegFile) (i : Nat) : Option U64 :=
  match r.slots[i]? with
  | some slot => if 8 ≤ slot.length then some (BitVec.ofNat 64 (leValue (slot.take 8))) else none
  | none => none

/-- `x[i] <- v`: bytes 0 to 7 of slot `i` become the little-endian bytes of `v`, bytes 8 and up stay. "Used by no
instruction" (00_scope.md section 6.2); the host's preload access uses it (rule R9 (e)). -/
def RegFile.write (r : RegFile) (i : Nat) (v : U64) : Option RegFile :=
  match r.slots[i]? with
  | some slot =>
    if 8 ≤ slot.length then some { r with slots := r.slots.set i (leBytes 8 v.toNat ++ slot.drop 8) } else none
  | none => none

/-! ### The phases of a step (40_step_cycle.md) -/

/-- The byte address of the instruction at `pc`, `4 * pc` computed in `nat`, no wrap-around (rules R11, R52; DESIGN CHOICE of
the spec, D16, log entry 12). -/
def State.byteAddress (s : State) : Nat := instrBytes * s.pc.toNat

/-- Phase 1 (rule R47): the word at `pc` does not lie wholly inside memory, `4 * pc + 4 > MEM_BYTES`. The exact end is the
document's; beyond it, DESIGN CHOICE of the spec (D1, log entry 2). -/
def State.pastEnd (s : State) : Bool := decide (s.byteAddress + instrBytes > s.mem.size)

/-- Phase 2 (rule R48): `MemRead(4 * pc, 4)`, the instruction word at `pc`. `none` exactly where phase 1 fails. -/
def State.fetchWord (s : State) : Option Word := (s.mem.memRead s.byteAddress instrBytes).map (BitVec.ofNat 32)

/-- Phase 2 (rule R48): `ir <- word`. -/
def State.latch (s : State) (w : Word) : State := { s with ir := w }

/-- Phase 5 (rule R51): `pc <- pc + 1`, one instruction index. A step never reaches the wrap of 64 bits
(rule R12 (b)); that `exec` alone wraps there is a DESIGN CHOICE (log entry 12). -/
def State.advance (s : State) : State := { s with pc := s.pc + 1 }

/-- `pc <- v`: the write of `JUMP` (rule R60). -/
def State.setPc (s : State) (v : U64) : State := { s with pc := v }

/-- `run_state <- Halted`: the one transition of the run state (rules R15, R59). -/
def State.setHalted (s : State) : State := { s with runState := .halted }

/-! ### The exception (60_exceptions.md) -/

/-- `raise EndOfMemory` (rules R72, R77): the step ends at once and reports the failure to its caller. No state element
changes and nothing is recorded, so the state at the report is the state before the step; there is no handler, no saved
state and no return (rules R77, R78). -/
def raiseEndOfMemory : Host.Outcome State Fault Refusal := .fault .endOfMemory

/-- The code of a failure where an interface needs a number; `0` is no failure (rule R73). -/
def faultCode : Option Fault → Nat
  | none => 0
  | some .endOfMemory => 1

/-- The bit of the run state where an interface needs one (rule R15). -/
def runStateBit : RunState → BitVec 1
  | .running => 0
  | .halted => 1

end Sys2Proof.Machine
end

