-- ==== Sys2Proof/Machine/Operands.lean ====
section
/-! DEFINITION. Operand forms. No instruction has an explicit operand or an immediate (rule R38); the one operand of the
machine is implicit: `JUMP` reads register slot 0 (rules R9 (a), R60). There is no flag and no condition
(rule R13), so there is no Flags file. -/

namespace Sys2Proof.Machine

/-- The operand of `JUMP`: `x[0]`, a byte address, "whatever the payload holds" (rules R38, R60). -/
def jumpOperand (s : State) : Option U64 := s.regs.read 0

/-- A byte address divided by 4 to convert it to an instruction index, rounded toward zero (rules R52, R60; for an
address that is no multiple of 4, DESIGN CHOICE of the spec, D3, log entry 4). -/
def instrIndex (a : U64) : U64 := BitVec.ofNat 64 (a.toNat / 4)

end Sys2Proof.Machine
end

