-- ==== Sys2Proof/Machine/Control.lean ====
section
/-! DEFINITION. The meanings of `HALT` and `JUMP` (42_control.md), the two instructions that return early, without the
default advance. -/

namespace Sys2Proof.Machine

/-- `HALT` (rule R59): `run_state <- Halted`; the program counter keeps its value. -/
def execHalt (_payload : Payload) (s : State) : Host.Outcome State Fault Refusal := .next s.setHalted

/-- `JUMP` (rule R60): `pc <- x[0] div 4`, absolute, no increment, no check of the target. A register file without a
readable slot 0 breaks rule R4 (b) and is refused; `step` refuses such a state before it gets here. -/
def execJump (_payload : Payload) (s : State) : Host.Outcome State Fault Refusal :=
  match jumpOperand s with
  | some a => .next (s.setPc (instrIndex a))
  | none => .refused .configOutsideSpec

end Sys2Proof.Machine
end

