-- ==== Sys2Proof/Machine/NoEffect.lean ====
section
/-! DEFINITION. The meanings of `NOOP`, `MOVE`, `LOAD` and the unknown opcodes (41_no_effect.md): nothing in phase 4,
then the default advance. Each has its own definition: "preserve them as explicit no-op variants". -/

namespace Sys2Proof.Machine

/-- `NOOP` (rule R55): "no state change besides the implicit program-counter advance at the end of the cycle." -/
def execNoop (_payload : Payload) (s : State) : Host.Outcome State Fault Refusal := .next s.advance

/-- `MOVE` (rule R56): "currently has no modeled side effect"; no register is read or written. -/
def execMove (_payload : Payload) (s : State) : Host.Outcome State Fault Refusal := .next s.advance

/-- `LOAD` (rule R57): "currently has no modeled side effect"; no memory access, no register written. -/
def execLoad (_payload : Payload) (s : State) : Host.Outcome State Fault Refusal := .next s.advance

/-- `UNKNOWN` (rules R40, R58): "an implicit no-op (falls through with no side effect)". -/
def execUnknown (_opcode : Byte) (_payload : Payload) (s : State) : Host.Outcome State Fault Refusal := .next s.advance

end Sys2Proof.Machine
end

