-- ==== Sys2Proof/Machine/Dispatch.lean ====
section
/-! DEFINITION. Phases 4 and 5 of a step by class (rule R50): one arm per instruction. -/

namespace Sys2Proof.Machine

/-- Execute one instruction: what its rule does in phase 4, and the default advance where the rule has it. -/
def exec (i : Instr) (s : State) : Host.Outcome State Fault Refusal :=
  match i with
  | .noop p => Sys2Proof.Machine.execNoop p s
  | .halt p => Sys2Proof.Machine.execHalt p s
  | .move p => Sys2Proof.Machine.execMove p s
  | .load p => Sys2Proof.Machine.execLoad p s
  | .jump p => Sys2Proof.Machine.execJump p s
  | .unknown o p => Sys2Proof.Machine.execUnknown o p s

end Sys2Proof.Machine
end

