-- ==== Sys2Proof/Machine/Step.lean ====
section
/-! DEFINITION. `step`, the Engine's one operation (rules R45 to R54), and the placement of a word where the next step
fetches it. -/

namespace Sys2Proof.Machine

/-- One instruction cycle (rule R54). A state outside rule R4 is refused. The order of the checks is rule R76's: the
`Halted` gate (rule R46; DESIGN CHOICE of the spec, D2, log entry 3), the bounds check (rule R47), then fetch, decode and execute (rules R48 to R51). The fetch
inside memory always answers a word (`fetchWord_isSome_iff` in Laws/Ops.lean), so the last arm is never taken. -/
def step (s : State) : Host.Outcome State Fault Refusal :=
  if s.legal then
    match s.runState with
    | .halted => .next s
    | .running =>
      if s.pastEnd then raiseEndOfMemory
      else
        match s.fetchWord with
        | some w => exec (decodeWord w) (s.latch w)
        | none => raiseEndOfMemory
  else .refused .configOutsideSpec

/-- `s` with the word whose bits are `w` stored at `pc`, where the next step fetches it; nothing else changes. Where
`pc` lies past the end of memory there is no such place, and `s` stays as it is. This stands for the host's memory
image (rules R82, R84; log entry 8). -/
def State.withFetchWord (s : State) (nbits w : Nat) : State :=
  match s.mem.writeBytes s.byteAddress (leBytes instrBytes (w % 2 ^ nbits)) with
  | some m => { s with mem := m }
  | none => s

end Sys2Proof.Machine
end

