-- ==== Sys2Proof/Machine/HostPort.lean ====
section
/-! DEFINITION. What the host does to a machine that no driver is running: construction, which is reset (rules R20,
R82, R84), and the register preload (rule R9 (e), decision D7). When these are allowed is `hostAct` in
Machine/Drivers.lean (rule R69). -/

namespace Sys2Proof.Machine

/-- The cells of a byte sequence laid out from address `a` upwards, in canonical form. -/
def cellsOfImage : Nat → List Byte → List Host.Cell
  | _, [] => []
  | a, b :: rest => if b = unlistedByte then cellsOfImage (a + 1) rest else (a, b) :: cellsOfImage (a + 1) rest

/-- The memory that holds exactly the byte sequence `image` (rules R19, R20). -/
def memoryOfImage (image : List Byte) : Memory := { size := image.length, cells := cellsOfImage 0 image }

/-- The register file after reset: `n` slots of `width` bytes `0x00` (rule R20). -/
def zeroedRegisters (n width : Nat) : RegFile :=
  { width := width, slots := List.replicate n (List.replicate width 0x00) }

/-- Construction, the one kind of reset (rules R20, R82): memory is the image, every register byte `0x00`, `pc = 0`,
`ir = 0`, `Running`. A configuration that breaks rule R4, or an image that does not have `MEM_BYTES` bytes, is
refused. -/
def construct (c : Config) (image : List Byte) : Except Refusal State :=
  if configLegal c && image.length == c.memBytes then
    .ok { mem := memoryOfImage image, regs := zeroedRegisters c.nregs c.regBytes, pc := 0, ir := 0, runState := .running }
  else .error .configOutsideSpec

/-- The register preload (rules R9 (e), R21): the host writes `v` to slot `i`. -/
def preload (i : Nat) (v : U64) (s : State) : Except Refusal State :=
  match s.regs.write i v with
  | some r => .ok { s with regs := r }
  | none => .error .noSuchSlot

end Sys2Proof.Machine
end

