-- ==== Sys2Proof/Machine/Drivers.lean ====
section
/-! DEFINITION. The two execution drivers (43_drivers.md): the loops of rules R62 and R63 under fuel (rule R67: "A model
runs drivers under fuel"), and the block with its driver, its trigger channel and its host as one transition system.
A driver holds no architectural state (rule R61): what is here beside the machine is the driver's place in its loop and
the host's queue of trigger events. -/

namespace Sys2Proof.Machine

/-- An event of the trigger channel (rule R64): a line, whose "content is discarded", or the end of the stream. -/
inductive TriggerEvent where
  | line (content : List Byte)
  | endOfStream
deriving DecidableEq, Repr

/-- One wait (rules R64, R65): it consumes the first event; the end of the stream satisfies it and stays, so that
"every later wait returns at once" (DESIGN CHOICE of the spec, D15, log entry 10); with no event there is nothing to
release it. -/
def waitTrigger : List TriggerEvent → Option (List TriggerEvent)
  | [] => none
  | .line _ :: rest => some rest
  | .endOfStream :: rest => some (.endOfStream :: rest)

/-- What a driver returns to the host (rules R61, R68). `refused` is the model's own: a running machine outside rule R4
(log entry 11). -/
inductive RunOutcome where
  | ok
  | failed (f : Fault)
  | refused (r : Refusal)
deriving DecidableEq, Repr

/-- How a run under fuel stands when the fuel or the run ends (rule R68). -/
inductive RunEnd where
  /-- The driver returned. -/
  | returned (o : RunOutcome)
  /-- The single-step driver waits for a trigger that the queue does not hold (rules R63, R87). -/
  | blocked
  /-- The fuel ended first; the driver has not returned. -/
  | outOfFuel
deriving DecidableEq, Repr

/-- A run so far: how it stands, the machine, how many steps succeeded, how many waits began, the events left. -/
structure RunReport where
  ending : RunEnd
  machine : State
  steps : Nat
  waits : Nat
  triggers : List TriggerEvent
deriving DecidableEq, Repr

/-- The report of a run that takes `steps` steps and `waits` waits before the run `r` goes on. -/
def RunReport.after (r : RunReport) (steps waits : Nat) : RunReport :=
  { r with steps := r.steps + steps, waits := r.waits + waits }

/-- The report of a run that ends where it stands. -/
def RunReport.stop (e : RunEnd) (s : State) (q : List TriggerEvent) : RunReport :=
  { ending := e, machine := s, steps := 0, waits := 0, triggers := q }

/-- The run-to-halt driver (rule R62), at most `fuel` turns of its loop. As the rule writes it, the test of `run_state`
comes before `step` and so before the check of rule R4: a machine outside rule R4 is refused while `Running`, but once
`Halted` it returns `ok` as rule R66 reads (DESIGN CHOICE, log entry 11; no construction gives such a machine). -/
def runToHalt : Nat → State → RunReport
  | 0, s => .stop .outOfFuel s []
  | fuel + 1, s =>
    match s.runState with
    | .halted => .stop (.returned .ok) s []
    | .running =>
      match step s with
      | .fault f => .stop (.returned (.failed f)) s []
      | .refused r => .stop (.returned (.refused r)) s []
      | .next s' => (runToHalt fuel s').after 1 0

/-- The single-step driver (rule R63), at most `fuel` turns of its loop, over the trigger events `q`. A halted machine
outside rule R4 returns `ok`, as in `runToHalt` (DESIGN CHOICE, log entry 11). -/
def singleStep : Nat → State → List TriggerEvent → RunReport
  | 0, s, q => .stop .outOfFuel s q
  | fuel + 1, s, q =>
    match s.runState with
    | .halted => .stop (.returned .ok) s q
    | .running =>
      match step s with
      | .fault f => .stop (.returned (.failed f)) s q
      | .refused r => .stop (.returned (.refused r)) s q
      | .next s' =>
        match s'.runState with
        | .halted => (singleStep fuel s' q).after 1 0
        | .running =>
          match waitTrigger q with
          | some q' => (singleStep fuel s' q').after 1 1
          | none => (RunReport.stop .blocked s' q).after 1 1

/-! ### The block and its host (rules R21, R69) -/

/-- The two drivers (rule R61). -/
inductive Driver where
  /-- Run-to-halt (rule R62). -/
  | runToHalt
  /-- Single-step-with-pause (rule R63). -/
  | singleStep
deriving DecidableEq, Repr

/-- Where the driver stands. -/
inductive Phase where
  /-- Constructed, no driver started yet: the host may preload registers (rule R9). -/
  | idle
  /-- The driver is at the head of its loop (rules R62, R63). -/
  | stepping (d : Driver)
  /-- The single-step driver waits for a trigger (rule R64). -/
  | waiting
  /-- The driver has returned its outcome (rule R68). -/
  | returned (o : RunOutcome)
deriving DecidableEq, Repr

/-- The block with its driver: the machine, the driver's phase, the trigger events the host has sent and no wait has
consumed (rule R64). -/
structure Block where
  machine : State
  phase : Phase
  triggers : List TriggerEvent
deriving DecidableEq, Repr

/-- The phase after a successful step (rules R62, R63): the single-step driver waits "while still `Running`". -/
def phaseAfterStep (d : Driver) (s' : State) : Phase :=
  match d, s'.runState with
  | .singleStep, .running => .waiting
  | _, _ => .stepping d

/-- One move of the driver: a turn of its loop, or the end of a wait. A block whose driver waits without an event, has
returned or was not started stays as it is (rules R65, R66, R87). A halted machine outside rule R4 returns `ok`, as in
`runToHalt` (DESIGN CHOICE, log entry 11). -/
def Block.tick (b : Block) : Block :=
  match b.phase with
  | .idle => b
  | .returned _ => b
  | .waiting =>
    match waitTrigger b.triggers with
    | some q => { b with phase := .stepping .singleStep, triggers := q }
    | none => b
  | .stepping d =>
    match b.machine.runState with
    | .halted => { b with phase := .returned .ok }
    | .running =>
      match step b.machine with
      | .next s' => { b with machine := s', phase := phaseAfterStep d s' }
      | .fault f => { b with phase := .returned (.failed f) }
      | .refused r => { b with phase := .returned (.refused r) }

/-- `n` moves of the driver with nothing from the host in between. -/
def Block.ticks : Nat → Block → Block
  | 0, b => b
  | n + 1, b => Block.ticks n b.tick

/-- No driver is running: none was started, or the one that was has returned. -/
def Block.quiet (b : Block) : Bool :=
  match b.phase with
  | .idle => true
  | .returned _ => true
  | .stepping _ => false
  | .waiting => false

/-- What the host may do (rule R69). -/
inductive HostAction where
  /-- Construct a machine, which is reset (rule R82). -/
  | construct (c : Config) (image : List Byte)
  /-- Preload a register slot (rule R9). -/
  | preload (slot : Nat) (value : U64)
  /-- Start a driver and supply its trigger channel, with the events it already holds (rules R61, R69). -/
  | start (d : Driver) (channel : List TriggerEvent)
  /-- Send a trigger event (rule R64). -/
  | send (e : TriggerEvent)
deriving DecidableEq, Repr

/-- The effect of a host action, or why it is not allowed (rules R9, R69, R82): construction and a start while no driver
runs, a preload only before a driver was started, a trigger at any time. A start after any return, failures included, is
read from rule R66 (DEDUCED, log entry 9). Events that arrive early are kept in order
(rule R64; DESIGN CHOICE of the spec, D15, log entry 10). The host has no other access: no abort, no write to the machine
while a driver runs (DESIGN CHOICE of the spec, D7 and D13, log entry 9). -/
def Block.hostAct (b : Block) : HostAction → Except Refusal Block
  | .construct c image =>
    if b.quiet then
      match construct c image with
      | .ok s => .ok { machine := s, phase := .idle, triggers := [] }
      | .error r => .error r
    else .error .hostAccessNotAllowed
  | .preload i v =>
    match b.phase with
    | .idle =>
      match preload i v b.machine with
      | .ok s => .ok { b with machine := s }
      | .error r => .error r
    | _ => .error .hostAccessNotAllowed
  | .start d channel =>
    if b.quiet then .ok { b with phase := .stepping d, triggers := b.triggers ++ channel } else .error .hostAccessNotAllowed
  | .send e => .ok { b with triggers := b.triggers ++ [e] }

/-- What the host can observe between steps: the machine's state, whole (rules R21, R69, R80). -/
def Block.observe (b : Block) : State := b.machine

/-- The outcome the driver has returned to the host, if it has (rules R21, R68). -/
def Block.outcome (b : Block) : Option RunOutcome :=
  match b.phase with
  | .returned o => some o
  | .idle => none
  | .stepping _ => none
  | .waiting => none

end Sys2Proof.Machine
end

