-- ==== Sys2Proof/Safety.lean ====
section
/-! DEFINITION. What the statements say about runs: the machine's invariant, the states a machine can reach, and the
two ways a run ends (rule R68). -/

namespace Sys2Proof.Machine

/-- A halted machine stands on the HALT word it executed, and `ir` holds that word (rules R14, R59, R68). -/
def State.haltedOnHalt (s : State) : Bool :=
  match s.runState with
  | .running => true
  | .halted => s.fetchWord == some s.ir && opcodeOf s.ir == 0x01

/-- The machine's invariant: the configuration is legal (rule R4), memory is in canonical form, the program counter is
below `2^62` (rule R12 (b), (c)), and a halted machine stands on the HALT word in `ir` (rule R68). -/
def State.inv (s : State) : Bool :=
  s.legal && s.mem.wf && decide (s.pc.toNat < 2 ^ 62) && s.haltedOnHalt

/-- The EndOfMemory condition as a function of the state: `run_state == Running and 4 * pc >= MEM_BYTES`
(rule R72 (e)). -/
def State.endOfMemoryPending (s : State) : Bool :=
  decide (s.runState = .running) && decide (s.byteAddress ≥ s.mem.size)

/-- `t` comes from `s` by steps of the machine. -/
inductive Reaches : State → State → Prop where
  | refl (s : State) : Reaches s s
  | step {s t u : State} (h : Reaches s t) (hs : Sys2Proof.Machine.step t = .next u) : Reaches s u

/-- How a run of `s` ends (rule R68). A run of a legal machine is never refused. When a driver returned `Ok` the
machine is halted, and if it took a step, `pc` is the index of the HALT word executed and `ir` is that word. When it
returned a failure the machine is `Running`, `pc` is out of range, and `ir` is the word the last successful step
fetched, or what it was at the start. Memory and registers are as at the start of the run. -/
def RunReport.endsAsSpecified (s : State) (r : RunReport) : Prop :=
  (∀ x, r.ending ≠ .returned (.refused x)) ∧ r.machine.mem = s.mem ∧ r.machine.regs = s.regs ∧
  (r.ending = .returned .ok →
    r.machine.runState = .halted ∧
    (r.steps = 0 → r.machine = s) ∧
    (0 < r.steps → r.machine.fetchWord = some r.machine.ir ∧ opcodeOf r.machine.ir = 0x01)) ∧
  (∀ f, r.ending = .returned (.failed f) →
    f = .endOfMemory ∧ r.machine.runState = .running ∧ r.machine.memWords ≤ r.machine.pc.toNat ∧
    (r.steps = 0 → r.machine = s) ∧
    (0 < r.steps → ∃ t, Sys2Proof.core.run (r.steps - 1) s = .next t ∧ t.fetchWord = some r.machine.ir))

end Sys2Proof.Machine
end

