-- ==== Sys2Proof/Certificates/Slice0/Obligations.lean ====
section
/-! DEFINITION. The statements for the provers. Each docstring names the rule or section of spec/ it formalises. `D<n>`
are the spec's own decisions (92_eei_decisions.md); a statement that rests on one says so. -/

open Sys2Proof Sys2Proof.Machine

/-! ### Encoding (30_encoding.md) -/

/-- Words of 95_test_vectors.md section 2.1 (DV2, DV4, DV6, DV8, DV11, DV18, DV17), DV20 as bytes, and two canonical
words of the opcode map. -/
def Obligations.DecodeReadsSampleWords : Prop :=
  decodeWord 0x00FFFFFF = .noop 0xFFFFFF ∧ decodeWord 0x01FFFFFF = .halt 0xFFFFFF
    ∧ decodeWord 0x02123456 = .move 0x123456 ∧ decodeWord 0x03ABCDEF = .load 0xABCDEF
    ∧ decodeWord 0x04000001 = .jump 0x000001 ∧ decodeWord 0x12345678 = .unknown 0x12 0x345678
    ∧ decodeWord 0xFFFFFFFF = .unknown 0xFF 0xFFFFFF
    ∧ decodeBytes [0x04, 0x03, 0x02, 0x01] = .ok (.halt 0x020304, [])
    ∧ encode (.halt 0) = 0x01000000 ∧ encodeBytes (.jump 0) = [0x00, 0x00, 0x00, 0x04]

/-- Rule R37. -/
def Obligations.OpcodeIsTopByteAndMaskChangesNothing : Prop :=
  ∀ w : Word, (opcodeOf w).setWidth 32 = (w >>> 24) &&& 0xFF#32 ∧ (w >>> 24) &&& 0xFF#32 = w >>> 24

/-- Rule R41: the decoder as the spec writes it, on every word, with the word's payload. -/
def Obligations.DecodeSelectsClassByOpcode : Prop :=
  ∀ w : Word,
    let k := ((w >>> 24) &&& 0xFF#32).toNat
    let p := w.setWidth 24
    decodeWord w =
      if k = 0x00 then .noop p
      else if k = 0x01 then .halt p
      else if k = 0x02 then .move p
      else if k = 0x03 then .load p
      else if k = 0x04 then .jump p
      else .unknown (BitVec.ofNat 8 k) p

/-- 30_encoding.md section 6: `decode(encode(m, p)) = m`, here for every well-formed instruction of every class with
every operand, from the word, from its bytes in memory before any further bytes, and from the table's numbering. -/
def Obligations.DecodeOfEncodeIsIdentity : Prop :=
  ∀ i : Instr, i.wf = true →
    decodeWord (encode i) = i ∧ (∀ rest, decodeBytes (encodeBytes i ++ rest) = .ok (i, rest))
      ∧ decodeTableWord 32 (encode i).toNat = some i

/-- 30_encoding.md section 5: every word has one meaning; what it decodes to is well-formed and encodes to it. -/
def Obligations.EncodeOfDecodeIsIdentity : Prop :=
  ∀ w : Word, (decodeWord w).wf = true ∧ encode (decodeWord w) = w

/-- 30_encoding.md section 5, the twelve rows of the opcode map: "every word matches exactly one row", and the decoder
answers that row's mnemonic. -/
def Obligations.EveryWordMatchesExactlyOneTableRow : Prop :=
  ∀ w : Word, (opcodeTable.filter (fun row => row.covers w)).map (fun row => row.mnemonic) = [(decodeWord w).mnemonic]

/-! ### Memory, byte order, fetch (20_memory.md, 30_encoding.md) -/

/-- 20_memory.md section 2: `MemRead(addr, n)` is the little-endian sum of its bytes where `addr + n <= MEM_BYTES`, and
is not defined elsewhere. -/
def Obligations.MemReadIsLittleEndianSum : Prop :=
  ∀ (m : Memory) (addr n : Nat),
    (addr + n ≤ m.size →
      (∀ k, k < n → (m.read (addr + k)).isSome = true) ∧
      m.memRead addr n = some (∑ k ∈ Finset.range n, ((m.read (addr + k)).getD 0).toNat * 2 ^ (8 * k))) ∧
    (m.size < addr + n → m.memRead addr n = none)

/-- Rule R36: the word at `pc` from its four bytes, and its opcode is the byte at `4 * pc + 3`. -/
def Obligations.FetchedWordIsFourBytesLittleEndian : Prop :=
  ∀ (s : State) (b0 b1 b2 b3 : Byte),
    s.mem.read (4 * s.pc.toNat) = some b0 → s.mem.read (4 * s.pc.toNat + 1) = some b1 →
    s.mem.read (4 * s.pc.toNat + 2) = some b2 → s.mem.read (4 * s.pc.toNat + 3) = some b3 →
    ∃ w, s.fetchWord = some w ∧ opcodeOf w = b3 ∧
      w = (b0.setWidth 32 ||| b1.setWidth 32 <<< 8 ||| b2.setWidth 32 <<< 16 ||| b3.setWidth 32 <<< 24)

/-- Rule R24: (a) for the fetched word, (b) for the value of a register slot. -/
def Obligations.ByteOrderIsLittleEndian : Prop :=
  (∀ (s : State) (w : Word) (k : Nat), s.fetchWord = some w → k < 4 →
    s.mem.read (4 * s.pc.toNat + k) = some (w.extractLsb' (8 * k) 8)) ∧
  (∀ (r : RegFile) (i : Nat) (v : U64) (k : Nat), r.read i = some v → k < 8 →
    r.byte i k = some (v.extractLsb' (8 * k) 8))

/-- The model's representation (log entry 5): memory in canonical form is its sequence of bytes (10_state.md
section 7), so two that read alike are equal. -/
def Obligations.MemoriesThatReadAlikeAreEqual : Prop :=
  ∀ m m' : Memory, m.wf = true → m'.wf = true → (∀ a, m.read a = m'.read a) → m.size = m'.size → m = m'

/-! ### The step cycle (40_step_cycle.md, 60_exceptions.md) -/

/-- 40_step_cycle.md sections 2 and 5: where the bytes at `pc` decode to `i`, a step of a running machine is `exec i` on
the state whose `ir` holds `i`'s word. -/
def Obligations.StepRunsTheDecodedInstruction : Prop :=
  ∀ (s : State) (bytes : List Byte) (i : Instr), s.legal = true → s.runState = .running →
    s.mem.readBytes (4 * s.pc.toNat) 4 = some bytes → decodeBytes bytes = .ok (i, []) →
    step s = exec i { s with ir := encode i }

/-- 40_step_cycle.md section 4, 00_scope.md section 5: a step of a legal machine returns a next state or EndOfMemory,
"never anything else". -/
def Obligations.StepOfLegalMachineIsNextOrEndOfMemory : Prop :=
  ∀ s : State, s.legal = true → (∃ t, step s = .next t) ∨ step s = .fault .endOfMemory

/-- 40_step_cycle.md phase 1 and 60_exceptions.md section 1 with decisions D1, D2, D5 and D16: the step fails exactly
where a running machine's word does not lie wholly inside memory, computed in `nat`; the three ways the spec writes the
condition are the same. -/
def Obligations.EndOfMemoryExactlyPastTheLastWord : Prop :=
  ∀ s : State, s.legal = true →
    (step s = .fault .endOfMemory ↔ s.runState = .running ∧ 4 * s.pc.toNat + 4 > s.mem.size) ∧
    (step s = .fault .endOfMemory ↔ s.runState = .running ∧ 4 * s.pc.toNat ≥ s.mem.size) ∧
    (step s = .fault .endOfMemory ↔ s.runState = .running ∧ s.pc.toNat ≥ s.memWords)

/-- The document's own case (95_test_vectors.md property P5; 60_exceptions.md section 1): `pc` advanced to the length of
memory divided by 4. -/
def Obligations.StepAtLengthOfMemoryFails : Prop :=
  ∀ s : State, s.legal = true → s.runState = .running → 4 * s.pc.toNat = s.mem.size → step s = .fault .endOfMemory

/-- 00_scope.md section 5 with decision D4: a configuration that breaks a constraint is refused, by a step and by
construction. -/
def Obligations.IllegalConfigurationIsRefused : Prop :=
  ∀ c : Config, ¬ (c.memBytes % 4 = 0 ∧ c.memBytes ≤ 2 ^ 64 - 4 ∧ 1 ≤ c.nregs ∧ 8 ≤ c.regBytes) →
    (∀ image, construct c image = .error .configOutsideSpec) ∧
    (∀ s : State, s.config = c → step s = .refused .configOutsideSpec)

/-- 40_step_cycle.md section 1, decision D2: a step of a halted machine does nothing and is no failure, whatever its
`pc`. -/
def Obligations.StepOfHaltedMachineIsIdentity : Prop :=
  ∀ s : State, s.legal = true → s.runState = .halted → step s = .next s

/-! ### The instructions (41_no_effect.md, 42_control.md) -/

/-- 41_no_effect.md: `NOOP`, `MOVE`, `LOAD` and every unknown opcode complete on every state, with every payload, and do
nothing but the default advance. `s.pc + 1` is a sum of 64 bits: on `pc = 2^64 - 1` `exec` alone wraps to 0, a case
no rule describes and no step reaches (the model's choice, log entry 12). -/
def Obligations.NoEffectInstructionsAdvanceByOne : Prop :=
  ∀ (s : State) (p : Payload) (o : Byte),
    exec (.noop p) s = .next { s with pc := s.pc + 1 } ∧ exec (.move p) s = .next { s with pc := s.pc + 1 } ∧
    exec (.load p) s = .next { s with pc := s.pc + 1 } ∧ exec (.unknown o p) s = .next { s with pc := s.pc + 1 }

/-- 42_control.md, `HALT`: it completes on every state, sets `Halted` and leaves `pc` and everything else. -/
def Obligations.HaltSetsHaltedWithoutAdvance : Prop :=
  ∀ (s : State) (p : Payload), exec (.halt p) s = .next { s with runState := .halted }

/-- 42_control.md, `JUMP`: on every legal state it completes and sets `pc` to `x[0] div 4`, with every payload and every
value of `x[0]` (for one that is no multiple of 4, decision D3), and changes nothing else. A register file without a
readable slot 0, which 00_scope.md section 5 (decision D4) excludes, is refused. -/
def Obligations.JumpSetsPcToSlotZeroDividedByFour : Prop :=
  ∀ (s : State) (p : Payload),
    (s.legal = true → ∃ a t, s.regs.read 0 = some a ∧ exec (.jump p) s = .next t ∧ t.pc.toNat = a.toNat / 4 ∧
      t = { s with pc := t.pc }) ∧
    (s.regs.read 0 = none → exec (.jump p) s = .refused .configOutsideSpec)

/-- 42_control.md, `JUMP`, target computation (95_test_vectors.md property P3): "given register slot 0 containing
little-endian bytes encoding byte address `A` (a multiple of 4), executing JUMP sets `program_counter = A / 4`
exactly". -/
def Obligations.JumpToAlignedAddressIsExact : Prop :=
  ∀ (s : State) (p : Payload) (b0 b1 b2 b3 b4 b5 b6 b7 : Byte) (more : List Byte) (A : Nat),
    s.regs.slots[0]? = some (b0 :: b1 :: b2 :: b3 :: b4 :: b5 :: b6 :: b7 :: more) →
    A = b0.toNat + b1.toNat * 2 ^ 8 + b2.toNat * 2 ^ 16 + b3.toNat * 2 ^ 24 + b4.toNat * 2 ^ 32 + b5.toNat * 2 ^ 40
      + b6.toNat * 2 ^ 48 + b7.toNat * 2 ^ 56 →
    A % 4 = 0 →
    ∃ t, exec (.jump p) s = .next t ∧ 4 * t.pc.toNat = A ∧ t = { s with pc := t.pc }

/-- Rule R51: after every opcode but HALT's and JUMP's, `pc` is one higher, without overflow, and the end of memory is
the next step's check. The fetched word is in `ir`, everything else is as before. -/
def Obligations.DefaultAdvanceOfEveryOtherOpcode : Prop :=
  ∀ (s : State) (o : Byte), s.legal = true → s.runState = .running → s.mem.read (4 * s.pc.toNat + 3) = some o →
    o ≠ 0x01 → o ≠ 0x04 →
    ∃ w t, s.fetchWord = some w ∧ step s = .next t ∧ t = { s with ir := w, pc := s.pc + 1 } ∧
      t.pc.toNat = s.pc.toNat + 1 ∧ 4 * t.pc.toNat = 4 * s.pc.toNat + 4 ∧
      (s.pc.toNat + 1 = s.memWords → t.pc.toNat = t.memWords ∧ step t = .fault .endOfMemory)

/-- 42_control.md, `HALT`, and 40_step_cycle.md section 5: the whole step, in any word of memory, the last one
included. -/
def Obligations.StepOnHaltOpcode : Prop :=
  ∀ s : State, s.legal = true → s.runState = .running → s.mem.read (4 * s.pc.toNat + 3) = some 0x01 →
    ∃ w, s.fetchWord = some w ∧ step s = .next { s with ir := w, runState := .halted }

/-- 42_control.md, `JUMP`, and its corner cases (a) to (f) with decisions D1, D3 and D16: the whole step succeeds
whatever the target, and a target at or past the end of memory is the next step's EndOfMemory. -/
def Obligations.StepOnJumpOpcode : Prop :=
  ∀ s : State, s.legal = true → s.runState = .running → s.mem.read (4 * s.pc.toNat + 3) = some 0x04 →
    ∃ w a t, s.fetchWord = some w ∧ s.regs.read 0 = some a ∧ step s = .next t ∧
      t = { s with ir := w, pc := BitVec.ofNat 64 (a.toNat / 4) } ∧ t.pc.toNat = a.toNat / 4 ∧
      (step t = .fault .endOfMemory ↔ s.mem.size ≤ a.toNat)

/-- 41_no_effect.md and 42_control.md, "state written": what an instruction leaves as it was. Every byte of memory,
every register and `ir` for every instruction; the run state for all but `HALT`; `pc` for `HALT`. -/
def Obligations.ExecFrame : Prop :=
  ∀ (i : Instr) (s t : State), exec i s = .next t →
    (∀ a, t.mem.read a = s.mem.read a) ∧ t.mem = s.mem ∧ t.regs = s.regs ∧ t.ir = s.ir ∧
    ((∀ p, i ≠ .halt p) → t.runState = s.runState) ∧ ((∃ p, i = .halt p) → t.pc = s.pc)

/-- Rule R40: an unknown opcode is a no-op with the semantics of `NOOP`, and no encoding at all makes a step fail. -/
def Obligations.UnknownOpcodesAreNoOps : Prop :=
  (∀ (s : State) (o : Byte), s.legal = true → s.runState = .running → s.mem.read (4 * s.pc.toNat + 3) = some o →
    5 ≤ o.toNat → ∃ w, s.fetchWord = some w ∧ decodeWord w = .unknown o (payloadOf w) ∧
      step s = .next { s with ir := w, pc := s.pc + 1 }) ∧
  (∀ (s : State) (o : Byte) (p p' : Payload), exec (.unknown o p) s = exec (.noop p') s) ∧
  (∀ (s : State) (w : Word), s.legal = true → s.runState = .running → s.fetchWord = some w → ∃ t, step s = .next t)

/-- Rule R38: words with the same opcode byte do the same, whatever their payloads. -/
def Obligations.PayloadHasNoEffect : Prop :=
  ∀ (s : State) (w w' : Word), w >>> 24 = w' >>> 24 → exec (decodeWord w) s = exec (decodeWord w') s

/-! ### The state over a step and over a run (10_state.md) -/

/-- 10_state.md section 5, `ir`: it is written by the fetch with the word fetched and by nothing else, and no rule reads
it. Clauses 2 and 4 are about a direct step of a halted machine, which does nothing by the spec's decision D2 (the
model's choice, log entry 3). -/
def Obligations.IrIsWrittenByTheFetchAndReadByNothing : Prop :=
  (∀ s t : State, step s = .next t → s.runState = .running → s.fetchWord = some t.ir) ∧
  (∀ s t : State, step s = .next t → s.runState = .halted → t.ir = s.ir) ∧
  (∀ (s : State) (w : Word), s.runState = .running → step { s with ir := w } = step s) ∧
  (∀ (s t : State) (w : Word), s.runState = .halted → step s = .next t →
    step { s with ir := w } = .next { t with ir := w })

/-- 10_state.md section 5, run state, with decision D18 for the bit and decision D2 (log entry 3) for the steps of a
halted machine: a step ends `Halted` exactly if it began so or the
opcode byte fetched is HALT's; no run returns to `Running`; construction gives `Running`, and so does a failing step
leave it. -/
def Obligations.RunStateMovesForwardByHaltOnly : Prop :=
  (∀ s t : State, step s = .next t →
    (t.runState = .halted ↔ s.runState = .halted ∨ s.mem.read (4 * s.pc.toNat + 3) = some 0x01)) ∧
  (∀ s t : State, Reaches s t → s.runState = .halted → t = s) ∧
  (∀ (c : Config) (image : List Byte) (s : State), construct c image = .ok s → s.runState = .running) ∧
  (∀ (s : State) (f : Fault), step s = .fault f → s.runState = .running) ∧
  runStateBit .running = 0 ∧ runStateBit .halted = 1

/-- 10_state.md sections 2 and 7, 40_step_cycle.md section 5: memory and every register are constant over a run of any
length. A run here may hold steps of a halted machine, which do nothing by decision D2 (log entry 3). -/
def Obligations.RunsKeepMemoryAndRegisters : Prop :=
  ∀ s t : State, Reaches s t →
    (∀ a, t.mem.read a = s.mem.read a) ∧ t.mem = s.mem ∧ t.regs = s.regs

/-- 10_state.md section 2, access to the registers: two machines that differ only in registers, and agree on `x[0]`,
take the same step and still differ only there; where the opcode byte is not JUMP's, `x[0]` plays no part either. For a halted machine this is decision D2
(log entry 3). -/
def Obligations.OnlyJumpReadsOnlySlotZero : Prop :=
  ∀ (s : State) (r : RegFile), s.legal = true → State.legal { s with regs := r } = true →
    r.read 0 = s.regs.read 0 ∨ s.mem.read (4 * s.pc.toNat + 3) ≠ some 0x04 →
    (∀ t, step s = .next t → step { s with regs := r } = .next { t with regs := r }) ∧
    (∀ f, step s = .fault f → step { s with regs := r } = .fault f)

/-- 10_state.md section 3, 00_scope.md section 5, 43_drivers.md section 5: every step keeps the machine's invariant: a
legal configuration, memory in canonical form, `pc` below `2^62`, a halted machine on the HALT word in `ir`. For the
step of a halted machine this is decision D2 (log entry 3). -/
def Obligations.StepKeepsInvariant : Prop :=
  ∀ s t : State, s.inv = true → step s = .next t → t.inv = true

/-- The invariant holds at reset. The starting `pc = 0` is the spec's decision D9 (log entry 6), the zero image the model's
choice (log entry 5). -/
def Obligations.InvariantHoldsAtReset : Prop := State.reset.inv = true

/-- The invariant holds after every construction and every preload (70_reset_and_hazards.md sections 1 and 2). Choices of
the spec it rests on: the constructed `pc = 0` (decision D9, log entry 6) and the preload (decision D7, log entry 9). -/
def Obligations.InvariantHoldsAfterConstructionAndPreload : Prop :=
  (∀ (c : Config) (image : List Byte) (s : State), construct c image = .ok s → s.inv = true) ∧
  (∀ (i : Nat) (v : U64) (s t : State), s.inv = true → preload i v s = .ok t → t.inv = true)

/-- 10_state.md section 3: a step of a running machine moves `pc` in exactly one of four ways, three with a next state
(HALT, JUMP, every other opcode) and one without (EndOfMemory: every driver keeps the machine and with it `pc`); and the
section's consequences (b) to (d): from construction, with any preload of slot 0, `pc` stays at most
`max(MEM_WORDS, 2^62 - 1)`. Choices of the spec it rests on: JUMP off multiples of 4 (decision D3, log entry 4), a
failing step beyond the end of memory (D1, log entry 2) leaving the machine as it was (D5, log entry 14), `pc = 0` at
the start (D9, log entry 6), the preload (D7, log entry 9). -/
def Obligations.PcMovesInFourWaysAndStaysBounded : Prop :=
  (∀ s t : State, step s = .next t → s.runState = .running →
    (s.mem.read (4 * s.pc.toNat + 3) = some 0x01 ∧ t.pc = s.pc) ∨
    (s.mem.read (4 * s.pc.toNat + 3) = some 0x04 ∧ ∃ a, s.regs.read 0 = some a ∧ t.pc.toNat = a.toNat / 4) ∨
    (s.mem.read (4 * s.pc.toNat + 3) ≠ some 0x01 ∧ s.mem.read (4 * s.pc.toNat + 3) ≠ some 0x04 ∧
      t.pc.toNat = s.pc.toNat + 1)) ∧
  (∀ s : State, s.legal = true → s.runState = .running →
    (∃ t, step s = .next t) ∨
    (step s = .fault .endOfMemory ∧
      (∀ n q, (runToHalt (n + 1) s).machine.pc = s.pc ∧ (singleStep (n + 1) s q).machine.pc = s.pc) ∧
      (∀ d q, (Block.tick { machine := s, phase := .stepping d, triggers := q }).machine.pc = s.pc))) ∧
  (∀ (c : Config) (image : List Byte) (s t u : State) (v : U64), construct c image = .ok s → preload 0 v s = .ok t →
    Reaches t u → u.pc.toNat ≤ max u.memWords (2 ^ 62 - 1))

/-! ### Reset and the host (10_state.md section 8, 70_reset_and_hazards.md) -/

/-- 10_state.md section 8 and 70_reset_and_hazards.md section 1, `pc = 0` and `ir = 0` being the spec's decisions D9 and
D8: construction over any legal configuration and any image of its length gives memory the image, every register byte
zero, `pc = 0`, `ir = 0`, `Running`. -/
def Obligations.ConstructionGivesTheResetState : Prop :=
  ∀ (c : Config) (image : List Byte),
    c.memBytes % 4 = 0 → c.memBytes ≤ 2 ^ 64 - 4 → 1 ≤ c.nregs → 8 ≤ c.regBytes → image.length = c.memBytes →
    ∃ s, construct c image = .ok s ∧ s.mem.size = c.memBytes ∧ (∀ a, s.mem.read a = image[a]?) ∧
      (∀ i k, i < c.nregs → k < c.regBytes → s.regs.byte i k = some 0) ∧ (∀ i, i < c.nregs → s.regs.read i = some 0) ∧
      s.regs.slots.length = c.nregs ∧ s.pc = 0 ∧ s.ir = 0 ∧ s.runState = .running

/-- 00_scope.md section 5 and 10_state.md section 8 (decisions D8 and D9 for `ir` and `pc`): the reset state is the
reference configuration constructed over the all-zero image, which is the model's choice of image (log entry 5). -/
def Obligations.ResetIsConstructionOverZeroImage : Prop :=
  construct Config.reference (List.replicate 1024 0) = .ok State.reset

/-- 10_state.md section 2 (decision D7): a preload of an existing slot of a legal machine succeeds, sets that slot's
value byte by byte, and changes nothing else. -/
def Obligations.PreloadSetsOneSlot : Prop :=
  ∀ (s : State) (i : Nat) (v : U64), s.legal = true → i < s.regs.slots.length →
    ∃ t, preload i v s = .ok t ∧ t.regs.read i = some v ∧
      (∀ k, k < 8 → t.regs.byte i k = some (v.extractLsb' (8 * k) 8)) ∧
      (∀ k, 8 ≤ k → t.regs.byte i k = s.regs.byte i k) ∧
      (∀ j k, j ≠ i → t.regs.byte j k = s.regs.byte j k) ∧ t = { s with regs := t.regs } ∧ t.legal = true

/-- 43_drivers.md section 6 (decisions D7, D11 and D13): while a driver runs, the host can only send triggers; after a
driver was started no preload is allowed; before, it is. Two points of the last clause are the model's: that a driver may
be started again after any return, failures included (log entry 9, DEDUCED), and that the events of its channel come after
those the host sent early (decision D15, log entry 10). -/
def Obligations.HostAccessesInTheirTurn : Prop :=
  ∀ (b : Block),
    (∀ e, b.hostAct (.send e) = .ok { b with triggers := b.triggers ++ [e] }) ∧
    ((∃ d, b.phase = .stepping d) ∨ b.phase = .waiting →
      (∀ i v, b.hostAct (.preload i v) = .error .hostAccessNotAllowed) ∧
      (∀ d q, b.hostAct (.start d q) = .error .hostAccessNotAllowed) ∧
      (∀ c image, b.hostAct (.construct c image) = .error .hostAccessNotAllowed)) ∧
    ((∃ o, b.phase = .returned o) → ∀ i v, b.hostAct (.preload i v) = .error .hostAccessNotAllowed) ∧
    (b.phase = .idle → b.machine.legal = true → ∀ i v, i < b.machine.regs.slots.length →
      ∃ s, preload i v b.machine = .ok s ∧ b.hostAct (.preload i v) = .ok { b with machine := s }) ∧
    (b.phase = .idle ∨ (∃ o, b.phase = .returned o) →
      ∀ d q, b.hostAct (.start d q) = .ok { b with phase := .stepping d, triggers := b.triggers ++ q })

/-- The host's interface of this model (log entry 8): a word placed where the next step fetches it is what that step
runs, and placing it changes no other byte and nothing else. -/
def Obligations.PlacedWordIsTheNextInstruction : Prop :=
  ∀ (s : State) (w : Word), s.legal = true → s.mem.wf = true → s.runState = .running →
    4 * s.pc.toNat + 4 ≤ s.mem.size →
    let t := s.withFetchWord 32 w.toNat
    t = { s with mem := t.mem } ∧ t.mem.wf = true ∧ t.mem.size = s.mem.size ∧
      (∀ a, a < 4 * s.pc.toNat ∨ 4 * s.pc.toNat + 4 ≤ a → t.mem.read a = s.mem.read a) ∧
      step t = exec (decodeWord w) { t with ir := w }

/-! ### The drivers (43_drivers.md) -/

/-- 43_drivers.md section 2: the loop of the run-to-halt driver against the step function iterated, with every ending pinned down: `Ok`
on a halted machine, a failure or a refusal exactly as a step of the running machine answers it, spent fuel after as many
steps. The section knows only `Ok` and failure and does not say what becomes of a machine outside rule R4: the clause on
`refused`, and that the driver refuses such a machine if it is `Running` and returns at once if it is `Halted`, are the
model's choice (log entry 11). -/
def Obligations.RunToHaltStepsUntilHaltedOrFailure : Prop :=
  ∀ (n : Nat) (s : State),
    let r := runToHalt n s
    Sys2Proof.core.run r.steps s = .next r.machine ∧
    (∀ k, k < r.steps → ∃ t : State, Sys2Proof.core.run k s = .next t ∧ t.runState = .running) ∧
    (r.ending = .returned .ok → r.machine.runState = .halted) ∧
    (∀ f, r.ending = .returned (.failed f) → r.machine.runState = .running ∧ step r.machine = .fault f) ∧
    (∀ x, r.ending = .returned (.refused x) → r.machine.runState = .running ∧ step r.machine = .refused x) ∧
    (r.ending = .outOfFuel → r.steps = n) ∧ (r.ending ≠ .outOfFuel → r.steps < n) ∧
    r.ending ≠ .blocked ∧ r.waits = 0 ∧ r.triggers = []

/-- Rule R66: both drivers, started on a halted machine. The rule names no exception; that it holds of a halted machine
outside rule R4 too is the model's choice (log entry 11). -/
def Obligations.DriversReturnAtOnceOnHaltedMachine : Prop :=
  ∀ (n : Nat) (s : State) (q : List TriggerEvent), s.runState = .halted →
    runToHalt (n + 1) s = { ending := .returned .ok, machine := s, steps := 0, waits := 0, triggers := [] } ∧
    singleStep (n + 1) s q = { ending := .returned .ok, machine := s, steps := 0, waits := 0, triggers := q }

/-- 43_drivers.md section 3: the single-step driver goes through the states of run-to-halt and ends as it does unless it blocks; it
waits after every completed step while still `Running`: not before the first step, not after HALT, not after a failure.
Blocked, it has taken its last step and the machine is still `Running`; out of fuel, it has taken as many steps as it had
fuel and waited after each that left the machine `Running`. Two clauses are choices: that a blocked run has no event left
rests on the queue reading of the trigger channel (the spec's decision D15, log entry 10), and the clause on `refused`,
with all that is said of a machine outside rule R4, is the model's (log entry 11). -/
def Obligations.SingleStepIsRunToHaltWithWaits : Prop :=
  ∀ (n : Nat) (s : State) (q : List TriggerEvent),
    let r := singleStep n s q
    Sys2Proof.core.run r.steps s = .next r.machine ∧
    (∀ k, k < r.steps → ∃ t : State, Sys2Proof.core.run k s = .next t ∧ t.runState = .running) ∧
    (r.ending ≠ .blocked →
      (runToHalt n s).ending = r.ending ∧ (runToHalt n s).machine = r.machine ∧ (runToHalt n s).steps = r.steps) ∧
    (r.ending = .returned .ok → r.waits = r.steps - 1) ∧
    (∀ f, r.ending = .returned (.failed f) → r.waits = r.steps) ∧
    (∀ x, r.ending = .returned (.refused x) →
      r.waits = r.steps ∧ r.machine.runState = .running ∧ step r.machine = .refused x) ∧
    (r.ending = .blocked →
      r.waits = r.steps ∧ 0 < r.steps ∧ r.steps ≤ n ∧ r.machine.runState = .running ∧ r.triggers = []) ∧
    (r.ending = .outOfFuel →
      r.steps = n ∧ (r.machine.runState = .running → r.waits = n) ∧ (r.machine.runState = .halted → r.waits = n - 1))

/-- 43_drivers.md section 3, the trigger (decision D15): each wait consumes exactly one event, whatever a line holds;
the end of the stream stays; without an event there is nothing to end the wait. -/
def Obligations.WaitConsumesOneEvent : Prop :=
  waitTrigger [] = none ∧ (∀ c q, waitTrigger (.line c :: q) = some q) ∧
    (∀ q, waitTrigger (.endOfStream :: q) = some (.endOfStream :: q))

/-- 43_drivers.md section 3, failure of the trigger channel (decision D15): over a stream that ends, the single-step
driver ends as run-to-halt does, under every fuel. For a machine outside rule R4 both endings are the model's choice
(log entry 11). -/
def Obligations.EndedStreamRunsAsRunToHalt : Prop :=
  ∀ (n : Nat) (s : State) (q : List TriggerEvent), .endOfStream ∈ q →
    (singleStep n s q).ending = (runToHalt n s).ending ∧ (singleStep n s q).machine = (runToHalt n s).machine ∧
      (singleStep n s q).steps = (runToHalt n s).steps

/-- Rule R68: how a run of either driver ends. -/
def Obligations.RunsEndAsSpecified : Prop :=
  ∀ (n : Nat) (s : State) (q : List TriggerEvent), s.legal = true →
    (runToHalt n s).endsAsSpecified s ∧ (singleStep n s q).endsAsSpecified s

/-- 42_control.md, `JUMP`, corner case (c) (decision D3 where the address is no multiple of 4), and 43_drivers.md
section 4: a jump to itself never returns. -/
def Obligations.JumpToItselfNeverReturns : Prop :=
  ∀ (s : State) (a : U64), s.legal = true → s.runState = .running →
    s.mem.read (4 * s.pc.toNat + 3) = some 0x04 → s.regs.read 0 = some a → a.toNat / 4 = s.pc.toNat →
    ∀ n, (runToHalt n s).ending = .outOfFuel ∧ (runToHalt n s).steps = n ∧ (runToHalt n s).machine.pc = s.pc

/-- 10_state.md section 9 and 43_drivers.md sections 2 and 3 (decision D11). A start after an earlier return, which
`quiet` takes in, is the model's (log entry 9, DEDUCED), events sent before the start stay first (decision D15,
log entry 10), and the outcome over a machine outside rule R4 is the model's (log entry 11): the block, started by the host and moving by
itself, does what the driver loops do: it returns their outcome with their machine and the events they left, and it
waits where they block. -/
def Obligations.BlockRunsTheDriverLoops : Prop :=
  ∀ (n : Nat) (b : Block) (q : List TriggerEvent), b.quiet = true →
    (∃ b', b.hostAct (.start .runToHalt q) = .ok b' ∧
      ∀ o, (runToHalt n b.machine).ending = .returned o →
        ∃ k, Block.ticks k b' = { machine := (runToHalt n b.machine).machine, phase := .returned o,
                                  triggers := b.triggers ++ q }) ∧
    (∃ b', b.hostAct (.start .singleStep q) = .ok b' ∧
      (∀ o, (singleStep n b.machine (b.triggers ++ q)).ending = .returned o →
        ∃ k, Block.ticks k b' = { machine := (singleStep n b.machine (b.triggers ++ q)).machine, phase := .returned o,
                                  triggers := (singleStep n b.machine (b.triggers ++ q)).triggers }) ∧
      ((singleStep n b.machine (b.triggers ++ q)).ending = .blocked →
        ∃ k, Block.ticks k b' = { machine := (singleStep n b.machine (b.triggers ++ q)).machine, phase := .waiting, triggers := [] }))

/-- 70_reset_and_hazards.md section 4, progress (decision D15 for the events): a driver that waits without an event waits
on, for ever if the host sends none, and goes on with the same machine at the move after any event. -/
def Obligations.PausedDriverResumesOnAnyTrigger : Prop :=
  ∀ b : Block, b.phase = .waiting → b.triggers = [] →
    (∀ n, Block.ticks n b = b) ∧
    (∀ e, ∃ b', b.hostAct (.send e) = .ok b' ∧ b'.machine = b.machine ∧
      b'.tick.machine = b.machine ∧ b'.tick.phase = .stepping .singleStep)

/-- 70_reset_and_hazards.md section 4, progress (a consequence the spec derives): a driver at the head of its loop is
never stalled. On a running machine its move is a step or the report of EndOfMemory, on a halted one the return of
`Ok`. -/
def Obligations.ActiveDriverIsNeverStalled : Prop :=
  ∀ (b : Block) (d : Driver), b.phase = .stepping d → b.machine.legal = true →
    (b.machine.runState = .running →
      (∃ s', step b.machine = .next s' ∧ b.tick.machine = s' ∧ b.tick.triggers = b.triggers ∧
        (b.tick.phase = .waiting ↔ d = .singleStep ∧ s'.runState = .running) ∧
        (b.tick.phase = .waiting ∨ b.tick.phase = .stepping d)) ∨
      (step b.machine = .fault .endOfMemory ∧ b.tick = { b with phase := .returned (.failed .endOfMemory) })) ∧
    (b.machine.runState = .halted → b.tick = { b with phase := .returned .ok })

/-- 43_drivers.md section 3, the trigger over a whole single-step run (decision D15, log entry 10): every wait consumes
exactly one event until the first end of the stream, which satisfies every wait from then on; the driver blocks exactly at
the wait for which no event is left. -/
def Obligations.SingleStepConsumesOneEventPerWait : Prop :=
  ∀ (n : Nat) (s : State) (q : List TriggerEvent),
    let r := singleStep n s q
    r.triggers = q.drop (min r.waits (q.idxOf .endOfStream)) ∧
    (r.ending = .blocked → .endOfStream ∉ q ∧ r.waits = q.length + 1) ∧
    (r.ending ≠ .blocked → .endOfStream ∉ q → r.waits ≤ q.length)
end

