-- ==== Sys2Proof/Laws/Decode.lean ====
section
/-! SUPPORT. The fields of a word, and what the decoder answers for each opcode byte. -/

namespace Sys2Proof

/-- The opcode byte of a word built from its two fields (rule R35). -/
@[simp] theorem opcodeOf_wordOfFields (o : Byte) (p : Payload) : opcodeOf (wordOfFields o p) = o := by
  apply BitVec.eq_of_getLsbD_eq
  intro k hk
  have h1 : 24 + k < 32 := by omega
  have h2 : ¬ 24 + k < 24 := by omega
  simp [opcodeOf, wordOfFields, hk, h1, h2]

/-- The payload of a word built from its two fields (rule R35). -/
@[simp] theorem payloadOf_wordOfFields (o : Byte) (p : Payload) : payloadOf (wordOfFields o p) = p := by
  apply BitVec.eq_of_getLsbD_eq
  intro k hk
  have h1 : k < 32 := by omega
  simp [payloadOf, wordOfFields, hk, h1]

/-- A word is its two fields (rule R35). -/
theorem wordOfFields_fields (w : Word) : wordOfFields (opcodeOf w) (payloadOf w) = w := by
  apply BitVec.eq_of_getLsbD_eq
  intro k hk
  by_cases h : k < 24
  · simp [opcodeOf, payloadOf, wordOfFields, h, hk]
  · have h1 : k - 24 < 8 := by omega
    have h2 : 24 + (k - 24) = k := by omega
    simp [opcodeOf, payloadOf, wordOfFields, h, hk, h1, h2]

/-- The opcode byte as a number, the word's value divided by `2^24` (rule R37). -/
theorem opcodeOf_toNat (w : Word) : (opcodeOf w).toNat = w.toNat / 2 ^ 24 := by
  have := w.isLt
  simp only [opcodeOf, BitVec.extractLsb'_toNat, Nat.shiftRight_eq_div_pow]
  omega

/-- What the decoder answers: the class of the opcode byte, one case for each (rule R41). -/
theorem decodeWord_cases (w : Word) :
    (opcodeOf w = 0x00 ∧ decodeWord w = .noop (payloadOf w)) ∨ (opcodeOf w = 0x01 ∧ decodeWord w = .halt (payloadOf w))
      ∨ (opcodeOf w = 0x02 ∧ decodeWord w = .move (payloadOf w)) ∨ (opcodeOf w = 0x03 ∧ decodeWord w = .load (payloadOf w))
      ∨ (opcodeOf w = 0x04 ∧ decodeWord w = .jump (payloadOf w))
      ∨ (5 ≤ (opcodeOf w).toNat ∧ decodeWord w = .unknown (opcodeOf w) (payloadOf w)) := by
  have named : ∀ k : Nat, k < 256 → (opcodeOf w).toNat = k → opcodeOf w = BitVec.ofNat 8 k := fun k hk h =>
    BitVec.eq_of_toNat_eq (by rw [h, BitVec.toNat_ofNat]; omega)
  unfold decodeWord
  split
  · exact .inl ⟨named 0 (by omega) ‹_›, rfl⟩
  · exact .inr (.inl ⟨named 1 (by omega) ‹_›, rfl⟩)
  · exact .inr (.inr (.inl ⟨named 2 (by omega) ‹_›, rfl⟩))
  · exact .inr (.inr (.inr (.inl ⟨named 3 (by omega) ‹_›, rfl⟩)))
  · exact .inr (.inr (.inr (.inr (.inl ⟨named 4 (by omega) ‹_›, rfl⟩))))
  · rename_i h0 h1 h2 h3 h4
    refine .inr (.inr (.inr (.inr (.inr ⟨?_, rfl⟩))))
    by_contra hlt
    have hc : (opcodeOf w).toNat = 0 ∨ (opcodeOf w).toNat = 1 ∨ (opcodeOf w).toNat = 2 ∨ (opcodeOf w).toNat = 3
        ∨ (opcodeOf w).toNat = 4 := by omega
    rcases hc with h | h | h | h | h
    · exact h0 h
    · exact h1 h
    · exact h2 h
    · exact h3 h
    · exact h4 h

end Sys2Proof
end

