-- ==== Sys2Proof/Laws/State.lean ====
section
/-! SUPPORT. One lemma per field per state update, so that no proof unfolds an update. -/

namespace Sys2Proof.Machine

variable (s : State)

@[simp] theorem latch_mem (w : Word) : (s.latch w).mem = s.mem := rfl
@[simp] theorem latch_regs (w : Word) : (s.latch w).regs = s.regs := rfl
@[simp] theorem latch_pc (w : Word) : (s.latch w).pc = s.pc := rfl
@[simp] theorem latch_ir (w : Word) : (s.latch w).ir = w := rfl
@[simp] theorem latch_runState (w : Word) : (s.latch w).runState = s.runState := rfl

@[simp] theorem advance_mem : (s.advance).mem = s.mem := rfl
@[simp] theorem advance_regs : (s.advance).regs = s.regs := rfl
@[simp] theorem advance_pc : (s.advance).pc = s.pc + 1 := rfl
@[simp] theorem advance_ir : (s.advance).ir = s.ir := rfl
@[simp] theorem advance_runState : (s.advance).runState = s.runState := rfl

@[simp] theorem setPc_mem (v : U64) : (s.setPc v).mem = s.mem := rfl
@[simp] theorem setPc_regs (v : U64) : (s.setPc v).regs = s.regs := rfl
@[simp] theorem setPc_pc (v : U64) : (s.setPc v).pc = v := rfl
@[simp] theorem setPc_ir (v : U64) : (s.setPc v).ir = s.ir := rfl
@[simp] theorem setPc_runState (v : U64) : (s.setPc v).runState = s.runState := rfl

@[simp] theorem setHalted_mem : (s.setHalted).mem = s.mem := rfl
@[simp] theorem setHalted_regs : (s.setHalted).regs = s.regs := rfl
@[simp] theorem setHalted_pc : (s.setHalted).pc = s.pc := rfl
@[simp] theorem setHalted_ir : (s.setHalted).ir = s.ir := rfl
@[simp] theorem setHalted_runState : (s.setHalted).runState = .halted := rfl

@[simp] theorem advance_legal : s.advance.legal = s.legal := rfl
@[simp] theorem setHalted_legal : s.setHalted.legal = s.legal := rfl
@[simp] theorem latch_legal (w : Word) : (s.latch w).legal = s.legal := rfl
@[simp] theorem setPc_legal (v : U64) : (s.setPc v).legal = s.legal := rfl
@[simp] theorem latch_latch (v w : Word) : (s.latch v).latch w = s.latch w := rfl
@[simp] theorem latch_fetchWord (w : Word) : (s.latch w).fetchWord = s.fetchWord := rfl
@[simp] theorem latch_pastEnd (w : Word) : (s.latch w).pastEnd = s.pastEnd := rfl
@[simp] theorem setHalted_fetchWord : s.setHalted.fetchWord = s.fetchWord := rfl

end Sys2Proof.Machine
end

