-- ==== Sys2Proof/Laws/Ops.lean ====
section
/-! SUPPORT. What each shared operation does, once: byte order, the memory's canonical form and its read-after-write
laws, the bounds of a read, the register file, construction. -/

namespace Sys2Proof

/-! ### Byte order -/

@[simp] theorem length_leBytes (n v : Nat) : (leBytes n v).length = n := by
  induction n generalizing v with
  | zero => rfl
  | succ n ih => simp [leBytes, ih]

/-- Bytes written little-endian are read back as the low `8n` bits of the value. -/
theorem leValue_leBytes (n v : Nat) : leValue (leBytes n v) = v % 256 ^ n := by
  induction n generalizing v with
  | zero => simp [leBytes, leValue, Nat.mod_one]
  | succ n ih =>
    have h : v % (256 * 256 ^ n) = v % 256 + 256 * (v / 256 % 256 ^ n) := Nat.mod_mul
    simp only [leBytes, leValue, ih, BitVec.toNat_ofNat, Nat.pow_succ]
    rw [Nat.mul_comm (256 ^ n), h]

theorem leValue_lt (bs : List Byte) : leValue bs < 256 ^ bs.length := by
  induction bs with
  | nil => simp [leValue]
  | cons b bs ih =>
    have hb := b.isLt
    simp only [leValue, List.length_cons, Nat.pow_succ]
    omega

namespace Machine

/-! ### The cells of memory -/

/-- Cells that start above `a` give `a` the unlisted byte. -/
theorem cellAt_below {hi lo : Nat} {cs : List Host.Cell} (h : canonicalCells hi lo cs = true) {a : Nat} (ha : a < lo) :
    cellAt cs a = unlistedByte := by
  induction cs generalizing lo with
  | nil => rfl
  | cons c rest ih =>
    simp only [canonicalCells, Bool.and_eq_true, decide_eq_true_eq] at h
    have hne : c.1 ≠ a := by omega
    simpa [cellAt, hne] using ih h.2 (by omega)

theorem canonicalCells_weaken {hi lo lo' : Nat} {cs : List Host.Cell} (h : canonicalCells hi lo cs = true)
    (hle : lo' ≤ lo) : canonicalCells hi lo' cs = true := by
  cases cs with
  | nil => rfl
  | cons c rest =>
    simp only [canonicalCells, Bool.and_eq_true, decide_eq_true_eq] at h ⊢
    exact ⟨⟨⟨by omega, h.1.1.2⟩, h.1.2⟩, h.2⟩

/-- Read after write, at the address written and at every other. -/
theorem cellAt_putCell {hi lo : Nat} {cs : List Host.Cell} (h : canonicalCells hi lo cs = true) (a : Nat) (b : Byte)
    (x : Nat) : cellAt (putCell cs a b) x = if x = a then b else cellAt cs x := by
  induction cs generalizing lo with
  | nil =>
    have hax : (a = x) = (x = a) := propext eq_comm
    by_cases hb : b = unlistedByte <;> by_cases hx : x = a <;> simp [putCell, cellAt, hb, hx, hax]
  | cons c rest ih =>
    obtain ⟨k, d⟩ := c
    simp only [canonicalCells, Bool.and_eq_true, decide_eq_true_eq] at h
    have below : ∀ y, y < k + 1 → cellAt rest y = unlistedByte := fun y hy => cellAt_below h.2 hy
    have ihx := ih h.2
    simp only [putCell]
    split
    · rename_i hlt
      by_cases hb : b = unlistedByte
      · by_cases hx : x = a
        · have hk : k ≠ a := by omega
          simp [hb, hx, cellAt, hk, below a (by omega)]
        · simp [hb, hx]
      · by_cases hx : x = a
        · simp [hb, hx, cellAt]
        · have : a ≠ x := fun e => hx e.symm
          simp [hb, hx, cellAt, this]
    · split
      · rename_i hak
        subst hak
        by_cases hb : b = unlistedByte
        · by_cases hx : x = a
          · simp [hb, hx, below a (by omega)]
          · have : a ≠ x := fun e => hx e.symm
            simp [hb, hx, cellAt, this]
        · by_cases hx : x = a
          · simp [hb, hx, cellAt]
          · have : a ≠ x := fun e => hx e.symm
            simp [hb, hx, cellAt, this]
      · by_cases hkx : k = x
        · have : x ≠ a := by omega
          simp [cellAt, hkx, this]
        · simp [cellAt, hkx, ihx]

/-- Listing a byte keeps the canonical form. -/
theorem canonicalCells_putCell {hi lo : Nat} {cs : List Host.Cell} (h : canonicalCells hi lo cs = true) {a : Nat}
    (b : Byte) (hlo : lo ≤ a) (hhi : a < hi) : canonicalCells hi lo (putCell cs a b) = true := by
  induction cs generalizing lo with
  | nil =>
    by_cases hb : b = unlistedByte <;> simp [putCell, canonicalCells, hb, hlo, hhi]
  | cons c rest ih =>
    obtain ⟨k, d⟩ := c
    have h' := h
    simp only [canonicalCells, Bool.and_eq_true, decide_eq_true_eq] at h
    simp only [putCell]
    split
    · by_cases hb : b = unlistedByte
      · simpa [hb] using h'
      · simp only [hb, if_false, canonicalCells, Bool.and_eq_true, decide_eq_true_eq]
        exact ⟨⟨⟨hlo, hhi⟩, hb⟩, ⟨⟨by omega, h.1.1.2⟩, h.1.2⟩, h.2⟩
    · split
      · rename_i hak
        subst hak
        by_cases hb : b = unlistedByte
        · simpa [hb] using canonicalCells_weaken h.2 (by omega)
        · simp only [hb, if_false, canonicalCells, Bool.and_eq_true, decide_eq_true_eq]
          exact ⟨⟨⟨hlo, hhi⟩, hb⟩, h.2⟩
      · simp only [canonicalCells, Bool.and_eq_true, decide_eq_true_eq]
        exact ⟨h.1, ih h.2 (by omega)⟩

/-! ### Memory -/

/-- A store inside memory: all it does. -/
theorem Memory.write_spec {m m' : Memory} {a : Nat} {b : Byte} (h : m.write a b = some m') :
    a < m.size ∧ m'.size = m.size ∧ m'.cells = putCell m.cells a b := by
  simp only [Memory.write] at h
  split at h
  · cases h; exact ⟨‹_›, rfl, rfl⟩
  · cases h

/-- A store keeps memory's canonical form. -/
theorem Memory.write_wf {m m' : Memory} {a : Nat} {b : Byte} (h : m.write a b = some m') (hm : m.wf = true) :
    m'.wf = true := by
  obtain ⟨ha, hs, hc⟩ := Memory.write_spec h
  simpa [Memory.wf, hs, hc] using canonicalCells_putCell hm b (Nat.zero_le a) ha

/-- Read after write. -/
theorem Memory.read_write {m m' : Memory} {a : Nat} {b : Byte} (h : m.write a b = some m') (hm : m.wf = true)
    (x : Nat) : m'.read x = if x = a then some b else m.read x := by
  obtain ⟨ha, hs, hc⟩ := Memory.write_spec h
  simp only [Memory.read, hs, hc, cellAt_putCell hm]
  by_cases hx : x = a
  · simp [hx, ha]
  · simp [hx]

/-- A sequence of stores: it succeeds exactly inside memory. -/
theorem Memory.writeBytes_isSome (m : Memory) (addr : Nat) (bs : List Byte) (h : addr + bs.length ≤ m.size) :
    ∃ m', m.writeBytes addr bs = some m' := by
  induction bs generalizing m addr with
  | nil => exact ⟨m, rfl⟩
  | cons b rest ih =>
    simp only [List.length_cons] at h
    have hw : m.write addr b = some { m with cells := putCell m.cells addr b } := by
      simp [Memory.write, show addr < m.size by omega]
    obtain ⟨m', hm'⟩ := ih { m with cells := putCell m.cells addr b } (addr + 1) (by simp only; omega)
    exact ⟨m', by simp [Memory.writeBytes, hw, hm']⟩

/-- A sequence of stores: the size and the canonical form stay. -/
theorem Memory.writeBytes_wf {m m' : Memory} {addr : Nat} {bs : List Byte} (h : m.writeBytes addr bs = some m')
    (hm : m.wf = true) : m'.size = m.size ∧ m'.wf = true := by
  induction bs generalizing m addr with
  | nil => cases h; exact ⟨rfl, hm⟩
  | cons b rest ih =>
    simp only [Memory.writeBytes] at h
    split at h
    · rename_i m1 h1
      obtain ⟨hs, hw⟩ := ih h (Memory.write_wf h1 hm)
      exact ⟨hs.trans (Memory.write_spec h1).2.1, hw⟩
    · cases h

/-- A sequence of stores: what every address reads as afterwards. -/
theorem Memory.read_writeBytes {m m' : Memory} {addr : Nat} {bs : List Byte} (h : m.writeBytes addr bs = some m')
    (hm : m.wf = true) (x : Nat) :
    m'.read x = if addr ≤ x ∧ x < addr + bs.length then bs[x - addr]? else m.read x := by
  induction bs generalizing m addr with
  | nil =>
    cases h
    rw [if_neg (by simp only [List.length_nil]; omega)]
  | cons b rest ih =>
    simp only [Memory.writeBytes] at h
    split at h
    · rename_i m1 h1
      rw [ih h (Memory.write_wf h1 hm), Memory.read_write h1 hm]
      simp only [List.length_cons]
      by_cases hx : x = addr
      · subst hx
        simp
      · by_cases hin : addr + 1 ≤ x ∧ x < addr + 1 + rest.length
        · have h2 : addr ≤ x ∧ x < addr + (rest.length + 1) := by omega
          have h3 : x - addr = (x - (addr + 1)) + 1 := by omega
          rw [if_pos hin, if_pos h2, h3, List.getElem?_cons_succ]
        · have h2 : ¬ (addr ≤ x ∧ x < addr + (rest.length + 1)) := by omega
          rw [if_neg hin, if_neg h2, if_neg hx]
    · cases h

/-- A read of a byte sequence: it is defined exactly inside memory, and byte `k` of it is the byte at `addr + k`. -/
theorem Memory.readBytes_spec {m : Memory} {addr n : Nat} {bs : List Byte} :
    m.readBytes addr n = some bs ↔ addr + n ≤ m.size ∧ bs = (List.range' addr n).map (cellAt m.cells) := by
  induction n generalizing addr bs with
  | zero =>
    by_cases ha : addr ≤ m.size <;> simp [Memory.readBytes, ha, eq_comm]
  | succ n ih =>
    simp only [Memory.readBytes, Memory.read, List.range'_succ, List.map_cons]
    by_cases ha : addr < m.size
    · simp only [ha, if_true]
      constructor
      · intro h
        split at h
        · rename_i b rest hb hr
          cases hb; cases h
          obtain ⟨hs, rfl⟩ := ih.mp hr
          exact ⟨by omega, rfl⟩
        · cases h
      · rintro ⟨hs, rfl⟩
        have hr : m.readBytes (addr + 1) n = some ((List.range' (addr + 1) n).map (cellAt m.cells)) :=
          ih.mpr ⟨by omega, rfl⟩
        simp [hr]
    · simp only [ha, if_false]
      constructor
      · intro h; cases h
      · rintro ⟨hs, -⟩; omega

/-- The memory of a byte sequence: its cells are canonical and read as the sequence. -/
theorem cellsOfImage_canonical (hi a : Nat) (image : List Byte) (h : a + image.length ≤ hi) :
    canonicalCells hi a (cellsOfImage a image) = true := by
  induction image generalizing a with
  | nil => rfl
  | cons b rest ih =>
    simp only [List.length_cons] at h
    have ih' := ih (a + 1) (by omega)
    simp only [cellsOfImage]
    split
    · exact canonicalCells_weaken ih' (by omega)
    · simp only [canonicalCells, Bool.and_eq_true, decide_eq_true_eq]
      exact ⟨⟨⟨Nat.le_refl a, by omega⟩, ‹_›⟩, ih'⟩

theorem cellAt_cellsOfImage (a : Nat) (image : List Byte) (k : Nat) (hk : k < image.length) :
    cellAt (cellsOfImage a image) (a + k) = image[k] := by
  induction image generalizing a k with
  | nil => exact absurd hk (Nat.not_lt_zero k)
  | cons b rest ih =>
    cases k with
    | zero =>
      simp only [cellsOfImage, Nat.add_zero, List.getElem_cons_zero]
      split
      · rename_i hb
        rw [hb]
        exact cellAt_below (cellsOfImage_canonical (a + 1 + rest.length) (a + 1) rest (Nat.le_refl _))
          (Nat.lt_succ_self a)
      · simp [cellAt]
    | succ k =>
      have h := ih (a + 1) k (by simpa using hk)
      have e : a + (k + 1) = a + 1 + k := by omega
      simp only [cellsOfImage, e, List.getElem_cons_succ]
      split
      · exact h
      · have : a ≠ a + 1 + k := by omega
        simpa [cellAt, this] using h

/-- An image of unlisted bytes lists nothing. -/
theorem cellsOfImage_replicate (a n : Nat) : cellsOfImage a (List.replicate n unlistedByte) = [] := by
  induction n generalizing a with
  | zero => rfl
  | succ n ih => simpa [List.replicate_succ, cellsOfImage] using ih (a + 1)

theorem memoryOfImage_wf (image : List Byte) : (memoryOfImage image).wf = true := by
  simpa [Memory.wf, memoryOfImage] using cellsOfImage_canonical image.length 0 image (by omega)

theorem read_memoryOfImage (image : List Byte) (a : Nat) : (memoryOfImage image).read a = image[a]? := by
  simp only [Memory.read, memoryOfImage]
  by_cases ha : a < image.length
  · simpa [ha] using cellAt_cellsOfImage 0 image a ha
  · simp [ha]

theorem reset_mem_wf : State.reset.mem.wf = true := rfl

/-! ### Configuration, registers, fetch -/

/-- What rule R4 asks of a configuration. -/
theorem configLegal_iff (c : Config) : configLegal c = true ↔
    c.memBytes % 4 = 0 ∧ c.memBytes ≤ 2 ^ 64 - 4 ∧ 1 ≤ c.nregs ∧ 8 ≤ c.regBytes := by
  simp only [configLegal, instrBytes, Bool.and_eq_true, decide_eq_true_eq, and_assoc]

/-- A legal state: all that rule R4 gives. -/
theorem legal_spec {s : State} (h : s.legal = true) :
    s.mem.size % 4 = 0 ∧ s.mem.size ≤ 2 ^ 64 - 4 ∧ 1 ≤ s.regs.slots.length ∧ 8 ≤ s.regs.width
      ∧ ∀ slot ∈ s.regs.slots, slot.length = s.regs.width := by
  simp only [State.legal, Bool.and_eq_true, configLegal_iff, List.all_eq_true, beq_iff_eq] at h
  exact ⟨h.1.1, h.1.2.1, h.1.2.2.1, h.1.2.2.2, h.2⟩

/-- Every register slot of a legal state can be read. -/
theorem regs_read_isSome {s : State} (h : s.legal = true) {i : Nat} (hi : i < s.regs.slots.length) :
    ∃ a, s.regs.read i = some a := by
  obtain ⟨-, -, -, hw, hall⟩ := legal_spec h
  have hlen := hall _ (List.getElem_mem hi)
  have h8 : 8 ≤ s.regs.slots[i].length := by omega
  exact ⟨_, by simp only [RegFile.read, List.getElem?_eq_getElem hi, h8, if_true]; rfl⟩

/-- A register write: the slot reads as the value, every other slot as before, the shape stays. -/
theorem RegFile.write_spec {r r' : RegFile} {i : Nat} {v : U64} (h : r.write i v = some r') :
    r'.read i = some v ∧ (∀ j, j ≠ i → r'.slots[j]? = r.slots[j]?) ∧ r'.width = r.width
      ∧ r'.slots.length = r.slots.length := by
  simp only [RegFile.write] at h
  split at h
  · rename_i slot hs
    split at h
    · rename_i h8
      cases h
      have hi : i < r.slots.length := (List.getElem?_eq_some_iff.mp hs).1
      refine ⟨?_, fun j hj => by simp [List.getElem?_set_ne (Ne.symm hj)], rfl, by simp⟩
      simp only [RegFile.read, List.getElem?_set_self hi]
      have ht : (leBytes 8 v.toNat ++ slot.drop 8).take 8 = leBytes 8 v.toNat := by
        rw [List.take_append_of_le_length (by simp), List.take_of_length_le (by simp)]
      have hv : v.toNat % 256 ^ 8 = v.toNat := Nat.mod_eq_of_lt (by have := v.isLt; omega)
      simp only [ht, leValue_leBytes, hv, BitVec.ofNat_toNat, BitVec.setWidth_eq]
      simp
    · cases h
  · cases h

/-- The fetch is defined exactly where the bounds check passes. -/
theorem fetchWord_isSome_iff (s : State) : s.fetchWord.isSome = true ↔ s.pastEnd = false := by
  simp only [State.fetchWord, Memory.memRead, Option.isSome_map, State.pastEnd, decide_eq_false_iff_not,
    Option.isSome_iff_exists, Memory.readBytes_spec]
  constructor
  · rintro ⟨bs, hs, -⟩
    omega
  · intro h
    exact ⟨_, by omega, rfl⟩

/-- The fetched word: its four bytes are the four bytes of memory at `4 * pc`. -/
theorem fetchWord_spec {s : State} {w : Word} (h : s.fetchWord = some w) :
    s.byteAddress + 4 ≤ s.mem.size ∧ w = wordOfBytes ((List.range' s.byteAddress 4).map (cellAt s.mem.cells)) := by
  simp only [State.fetchWord, Memory.memRead, Option.map_map, Option.map_eq_some_iff, Function.comp] at h
  obtain ⟨bs, hb, rfl⟩ := h
  obtain ⟨hs, rfl⟩ := Memory.readBytes_spec.mp hb
  exact ⟨hs, rfl⟩

theorem instrIndex_toNat (a : U64) : (instrIndex a).toNat = a.toNat / 4 := by
  have := a.isLt
  simp only [instrIndex, BitVec.toNat_ofNat]
  omega

end Machine

end Sys2Proof
end

