-- ==== Sys2Proof/Laws/Step.lean ====
section
/-! SUPPORT. What `exec` and `step` can do, once: the inversion lemmas the proofs cite instead of unfolding them. -/

namespace Sys2Proof.Machine

/-- Everything `exec` can do when it answers a next state. -/
theorem exec_cases {i : Instr} {s s' : State} (h : exec i s = .next s') :
    ((∀ p, i ≠ .halt p) ∧ (∀ p, i ≠ .jump p) ∧ s' = s.advance)
      ∨ ((∃ p, i = .halt p) ∧ s' = s.setHalted)
      ∨ ((∃ p, i = .jump p) ∧ ∃ a, jumpOperand s = some a ∧ s' = s.setPc (instrIndex a)) := by
  cases i with
  | halt p => cases h; exact .inr (.inl ⟨⟨p, rfl⟩, rfl⟩)
  | jump p =>
    refine .inr (.inr ⟨⟨p, rfl⟩, ?_⟩)
    simp only [exec, execJump] at h
    split at h
    · cases h; exact ⟨_, ‹_›, rfl⟩
    · cases h
  | noop p => cases h; exact .inl ⟨by simp, by simp, rfl⟩
  | move p => cases h; exact .inl ⟨by simp, by simp, rfl⟩
  | load p => cases h; exact .inl ⟨by simp, by simp, rfl⟩
  | unknown o p => cases h; exact .inl ⟨by simp, by simp, rfl⟩

/-- Everything `step` can do when it answers a next state: the `Halted` gate, or one instruction fetched inside
memory, latched and executed. -/
theorem step_next_cases {s s' : State} (h : step s = .next s') :
    s.legal = true ∧
      ((s.runState = .halted ∧ s' = s)
        ∨ (s.runState = .running ∧ s.pastEnd = false
            ∧ ∃ w, s.fetchWord = some w ∧ exec (decodeWord w) (s.latch w) = .next s')) := by
  unfold step at h
  split at h
  · refine ⟨‹_›, ?_⟩
    split at h
    · cases h; exact .inl ⟨‹_›, rfl⟩
    · split at h
      · cases h
      · split at h
        · exact .inr ⟨‹_›, by simpa using ‹¬ s.pastEnd = true›, _, ‹_›, h⟩
        · cases h
  · cases h

/-- Everything a failing step says of its state. -/
theorem step_fault_cases {s : State} {f : Fault} (h : step s = .fault f) :
    s.legal = true ∧ s.runState = .running ∧ s.pastEnd = true ∧ f = .endOfMemory := by
  cases f
  unfold step at h
  split at h
  · refine ⟨‹_›, ?_⟩
    split at h
    · cases h
    · split at h
      · exact ⟨‹_›, ‹_›, rfl⟩
      · rename_i hp
        have hp : s.pastEnd = false := by simpa using hp
        obtain ⟨w, hw⟩ := Option.isSome_iff_exists.mp ((fetchWord_isSome_iff s).mpr hp)
        rw [hw] at h
        simp only at h
        cases hd : decodeWord w with
        | jump p =>
          rw [hd] at h
          simp only [exec, execJump] at h
          split at h <;> cases h
        | _ => rw [hd] at h; cases h
  · cases h

/-- No steps of the host's run. -/
theorem core_run_zero (s : State) : Sys2Proof.core.run 0 s = .next s := rfl

/-- One step of the host's run, then the rest. -/
theorem core_run_succ_next {s t : State} (n : Nat) (h : step s = .next t) :
    Sys2Proof.core.run (n + 1) s = Sys2Proof.core.run n t := by
  have h' : Sys2Proof.core.step s = .next t := h
  simp only [Host.Core.run, h']

/-- A failing step ends the host's run. -/
theorem core_run_succ_fault {s : State} {f : Fault} (n : Nat) (h : step s = .fault f) :
    Sys2Proof.core.run (n + 1) s = .fault f := by
  have h' : Sys2Proof.core.step s = .fault f := h
  simp only [Host.Core.run, h']

/-- A refused step ends the host's run. -/
theorem core_run_succ_refused {s : State} {x : Refusal} (n : Nat) (h : step s = .refused x) :
    Sys2Proof.core.run (n + 1) s = .refused x := by
  have h' : Sys2Proof.core.step s = .refused x := h
  simp only [Host.Core.run, h']

end Sys2Proof.Machine
end

