-- ==== Sys2Proof/Laws/Drivers.lean ====
section
/-! SUPPORT. The small lemmas of the drivers: what one turn of each loop does, what a wait does, and the fields of a
report that goes on. -/

namespace Sys2Proof.Machine

section
variable (r : RunReport) (n m : Nat)
@[simp] theorem after_ending : (r.after n m).ending = r.ending := rfl
@[simp] theorem after_machine : (r.after n m).machine = r.machine := rfl
@[simp] theorem after_steps : (r.after n m).steps = r.steps + n := rfl
@[simp] theorem after_waits : (r.after n m).waits = r.waits + m := rfl
@[simp] theorem after_triggers : (r.after n m).triggers = r.triggers := rfl
end

/-- One turn of the run-to-halt loop on a halted machine. -/
theorem runToHalt_halted {s : State} (n : Nat) (h : s.runState = .halted) :
    runToHalt (n + 1) s = .stop (.returned .ok) s [] := by
  simp [runToHalt, h]

/-- One turn of the run-to-halt loop whose step succeeds. -/
theorem runToHalt_next {s s' : State} (n : Nat) (h : s.runState = .running) (hs : step s = .next s') :
    runToHalt (n + 1) s = (runToHalt n s').after 1 0 := by
  simp [runToHalt, h, hs]

/-- One turn of the run-to-halt loop whose step fails. -/
theorem runToHalt_fault {s : State} {f : Fault} (n : Nat) (h : s.runState = .running) (hs : step s = .fault f) :
    runToHalt (n + 1) s = .stop (.returned (.failed f)) s [] := by
  simp [runToHalt, h, hs]

/-- One turn of the run-to-halt loop whose step is refused. -/
theorem runToHalt_refused {s : State} {x : Refusal} (n : Nat) (h : s.runState = .running) (hs : step s = .refused x) :
    runToHalt (n + 1) s = .stop (.returned (.refused x)) s [] := by
  simp [runToHalt, h, hs]

/-- One turn of the single-step loop on a halted machine: no step, no wait. -/
theorem singleStep_halted {s : State} (n : Nat) (q : List TriggerEvent) (h : s.runState = .halted) :
    singleStep (n + 1) s q = .stop (.returned .ok) s q := by
  simp [singleStep, h]

/-- One turn of the single-step loop whose step succeeds: a wait follows exactly if the machine is still `Running`. -/
theorem singleStep_next {s s' : State} (n : Nat) (q : List TriggerEvent) (h : s.runState = .running)
    (hs : step s = .next s') :
    (s'.runState = .halted → singleStep (n + 1) s q = (singleStep n s' q).after 1 0) ∧
    (∀ q', s'.runState = .running → waitTrigger q = some q' →
      singleStep (n + 1) s q = (singleStep n s' q').after 1 1) ∧
    (s'.runState = .running → waitTrigger q = none →
      singleStep (n + 1) s q = (RunReport.stop .blocked s' q).after 1 1) := by
  refine ⟨fun h' => ?_, fun q' h' hq => ?_, fun h' hq => ?_⟩
  · simp [singleStep, h, hs, h']
  · simp [singleStep, h, hs, h', hq]
  · simp [singleStep, h, hs, h', hq]

/-- One turn of the single-step loop whose step fails: no wait. -/
theorem singleStep_fault {s : State} {f : Fault} (n : Nat) (q : List TriggerEvent) (h : s.runState = .running)
    (hs : step s = .fault f) : singleStep (n + 1) s q = .stop (.returned (.failed f)) s q := by
  simp [singleStep, h, hs]

/-- One turn of the single-step loop whose step is refused: no wait. -/
theorem singleStep_refused {s : State} {x : Refusal} (n : Nat) (q : List TriggerEvent) (h : s.runState = .running)
    (hs : step s = .refused x) : singleStep (n + 1) s q = .stop (.returned (.refused x)) s q := by
  simp [singleStep, h, hs]

/-- One move of a driver at the head of its loop, by what the step answers. -/
theorem Block.tick_stepping {b : Block} {d : Driver} (hp : b.phase = .stepping d) :
    (b.machine.runState = .halted → b.tick = { b with phase := .returned .ok }) ∧
    (b.machine.runState = .running →
      (∀ s', step b.machine = .next s' → b.tick = { b with machine := s', phase := phaseAfterStep d s' }) ∧
      (∀ f, step b.machine = .fault f → b.tick = { b with phase := .returned (.failed f) }) ∧
      (∀ x, step b.machine = .refused x → b.tick = { b with phase := .returned (.refused x) })) := by
  refine ⟨fun h => ?_, fun h => ⟨fun s' hs => ?_, fun f hs => ?_, fun x hs => ?_⟩⟩ <;> simp [Block.tick, *]

/-- Everything one wait can do. -/
theorem waitTrigger_cases {q q' : List TriggerEvent} (h : waitTrigger q = some q') :
    (∃ c, q = .line c :: q') ∨ ∃ rest, q = .endOfStream :: rest ∧ q' = q := by
  match q, h with
  | .line c :: rest, h => cases h; exact .inl ⟨c, rfl⟩
  | .endOfStream :: rest, h => cases h; exact .inr ⟨rest, rfl, rfl⟩

end Sys2Proof.Machine
end

