-- ==== Sys2Proof/Laws/PerInstr.lean ====
section
/-! SUPPORT. Families of statements made per instruction: one lemma per constructor of `Instr`. -/

namespace Sys2Proof.Laws

/-- The word of an instruction holds its opcode byte and its payload, each in its field (rules R35, R43). -/
def EncodedFields.Statement (i : Instr) : Prop := opcodeOf (encode i) = i.opcode ∧ payloadOf (encode i) = i.payload

theorem EncodedFields.noop (p : Payload) : EncodedFields.Statement (.noop p) :=
  ⟨opcodeOf_wordOfFields _ _, payloadOf_wordOfFields _ _⟩

theorem EncodedFields.halt (p : Payload) : EncodedFields.Statement (.halt p) :=
  ⟨opcodeOf_wordOfFields _ _, payloadOf_wordOfFields _ _⟩

theorem EncodedFields.move (p : Payload) : EncodedFields.Statement (.move p) :=
  ⟨opcodeOf_wordOfFields _ _, payloadOf_wordOfFields _ _⟩

theorem EncodedFields.load (p : Payload) : EncodedFields.Statement (.load p) :=
  ⟨opcodeOf_wordOfFields _ _, payloadOf_wordOfFields _ _⟩

theorem EncodedFields.jump (p : Payload) : EncodedFields.Statement (.jump p) :=
  ⟨opcodeOf_wordOfFields _ _, payloadOf_wordOfFields _ _⟩

theorem EncodedFields.unknown (o : Byte) (p : Payload) : EncodedFields.Statement (.unknown o p) :=
  ⟨opcodeOf_wordOfFields _ _, payloadOf_wordOfFields _ _⟩

end Sys2Proof.Laws
end

