-- ==== Sys2Proof/Tests/Slice0.lean ====
section
/-! SUPPORT. Small tests, expected results from 95_test_vectors.md (the vector is named), and for every statement with
hypotheses a concrete input that meets them (`witness_…`). -/

namespace Sys2Proof.Tests

open Sys2Proof.Machine

/-- The next state of an outcome. -/
def nextOf : Host.Outcome State Fault Refusal → Option State
  | .next s => some s
  | _ => none

/-- The failure of an outcome. -/
def faultOf : Host.Outcome State Fault Refusal → Option Fault
  | .fault f => some f
  | _ => none

/-- A running machine over `image` at instruction index `pc`, with `x[0]`; the other registers hold ones, `ir` an old
word (95_test_vectors.md section 2.2). -/
def machine (image : List Byte) (pc x0 : Nat) : State where
  mem := memoryOfImage image
  regs := { width := 8, slots := leBytes 8 x0 :: List.replicate 3 (List.replicate 8 0xFF) }
  pc := BitVec.ofNat 64 pc
  ir := 0xAAAAAAAA
  runState := .running

/-- The machine of section 2.2: 16 bytes, `word` at index 1, `pc = 1`. -/
def atWordOne (word : Nat) : State :=
  machine (leBytes 4 0 ++ leBytes 4 word ++ leBytes 8 0) 1 0x1122334455667788

/-! ### Well-formedness: the one check, what it refuses and what it takes -/

theorem test_wf_refuses_unknown_named : ([0, 1, 2, 3, 4].all fun k => !(Instr.unknown (BitVec.ofNat 8 k) 0).wf) = true := by
  decide

theorem test_wf_takes_unknown : (Instr.unknown 0x05 0).wf = true ∧ (Instr.unknown 0xFF 0xFFFFFF).wf = true := by decide

/-! ### Decoding (section 2.1) -/

/-- DV2, DV1. -/
theorem test_decode_noop : decodeWord 0x00FFFFFF = .noop 0xFFFFFF ∧ decodeBytes [0, 0, 0, 0] = .ok (.noop 0, []) := by
  decide

/-- DV4, DV20: the opcode is the byte at the highest address. -/
theorem test_decode_halt :
    decodeWord 0x01FFFFFF = .halt 0xFFFFFF ∧ decodeBytes [0x04, 0x03, 0x02, 0x01] = .ok (.halt 0x020304, []) := by
  decide

/-- DV6. -/
theorem test_decode_move : decodeBytes [0x56, 0x34, 0x12, 0x02, 0xAA] = .ok (.move 0x123456, [0xAA]) := by
  decide

/-- DV8. -/
theorem test_decode_load : decodeBytes [0xEF, 0xCD, 0xAB, 0x03] = .ok (.load 0xABCDEF, []) := by decide

/-- DV9, DV11. -/
theorem test_decode_jump : decodeWord 0x04000000 = .jump 0 ∧ decodeWord 0x04000001 = .jump 1 := by decide

/-- DV12, DV17, DV18. -/
theorem test_decode_unknown :
    decodeWord 0x05000000 = .unknown 0x05 0 ∧ decodeWord 0xFFFFFFFF = .unknown 0xFF 0xFFFFFF
      ∧ decodeBytes [0x78, 0x56, 0x34, 0x12] = .ok (.unknown 0x12 0x345678, []) := by
  decide

/-- DV13, DV14: a low byte is payload. -/
theorem test_decode_low_byte_is_payload : decodeWord 0x00000001 = .noop 1 ∧ decodeWord 0x00000004 = .noop 4 := by
  decide

theorem test_decode_truncated : decodeBytes [0x00, 0x00, 0x01] = .error .truncated := by decide

/-- The canonical words and bytes of rule R39. -/
theorem test_encode_canonical :
    [Instr.noop 0, .halt 0, .move 0, .load 0, .jump 0].map encode
        = [0x00000000, 0x01000000, 0x02000000, 0x03000000, 0x04000000]
      ∧ encodeBytes (.load 0xABCDEF) = [0xEF, 0xCD, 0xAB, 0x03] := by
  decide

theorem test_table_word : decodeTableWord 32 0x04001234 = some (.jump 0x001234) := by decide

/-! ### One step of each instruction (sections 2.2 to 2.4) -/

/-- NV2. -/
theorem test_step_noop : nextOf (step (atWordOne 0x00FFFFFF)) = some { atWordOne 0x00FFFFFF with pc := 2, ir := 0x00FFFFFF } := by
  decide

/-- NV4. -/
theorem test_step_move : nextOf (step (atWordOne 0x02010203)) = some { atWordOne 0x02010203 with pc := 2, ir := 0x02010203 } := by
  decide

/-- NV6. -/
theorem test_step_load : nextOf (step (atWordOne 0x0300000C)) = some { atWordOne 0x0300000C with pc := 2, ir := 0x0300000C } := by
  decide

/-- NV8. -/
theorem test_step_unknown : nextOf (step (atWordOne 0xFFFFFFFF)) = some { atWordOne 0xFFFFFFFF with pc := 2, ir := 0xFFFFFFFF } := by
  decide

/-- HV1: HALT in the last word; `pc` stays. -/
theorem test_step_halt :
    nextOf (step (machine [0, 0, 0, 0, 0, 0, 0, 1] 1 0))
      = some { machine [0, 0, 0, 0, 0, 0, 0, 1] 1 0 with ir := 0x01000000, runState := .halted } := by
  decide

/-- HV4: a halted machine with `pc` out of range does nothing. -/
theorem test_step_halted :
    nextOf (step { machine [0, 0, 0, 0, 0, 0, 0, 1] 5 0 with runState := .halted })
      = some { machine [0, 0, 0, 0, 0, 0, 0, 1] 5 0 with runState := .halted } := by
  decide

/-- JV18: backward jump, the payload and `x[1]` play no part. -/
theorem test_step_jump :
    nextOf (step (machine (leBytes 8 0 ++ leBytes 4 0x04001234 ++ leBytes 4 0) 2 4))
      = some { machine (leBytes 8 0 ++ leBytes 4 0x04001234 ++ leBytes 4 0) 2 4 with pc := 1, ir := 0x04001234 } := by
  decide

/-- JV9, JV14, JV15: low bits discarded, byte 4 of the slot counts, the largest target. -/
theorem test_step_jump_targets :
    [14, 2 ^ 32, 2 ^ 64 - 1].map (fun a => (nextOf (step (machine [0, 0, 0, 4] 0 a))).map (fun s => s.pc.toNat))
      = [some 3, some (2 ^ 30), some (2 ^ 62 - 1)] := by
  decide

/-! ### The bounds check and the fetch (sections 2.5 and 2.6) -/

/-- BV1, BV2, BV3, BV9, BV10 on two NOOP words: only index 1 is inside. -/
theorem test_bounds :
    [1, 2, 3, 2 ^ 62, 2 ^ 64 - 1].map (fun pc => faultOf (step (machine (leBytes 8 0) pc 12)))
      = [none, some .endOfMemory, some .endOfMemory, some .endOfMemory, some .endOfMemory] := by
  decide

/-- BV4: the empty memory. -/
theorem test_empty_memory : faultOf (step (machine [] 0 0)) = some .endOfMemory := by decide

/-- FV2: byte order of the fetch. -/
theorem test_fetch :
    (machine [0x11, 0x22, 0x33, 0x00, 0x44, 0x55, 0x66, 0x02, 0x77, 0x88, 0x99, 0x05] 1 0).fetchWord
      = some 0x02665544 := by
  decide

/-- A word placed at reset is the first instruction run. -/
theorem test_first_instruction :
    nextOf (step (State.reset.withFetchWord 32 0x05ABCDEF))
      = some { State.reset.withFetchWord 32 0x05ABCDEF with pc := 1, ir := 0x05ABCDEF } := by
  decide

/-- The numbers an interface uses (rules R15, R73). -/
theorem test_codes : faultCode none = 0 ∧ faultCode (some .endOfMemory) = 1 ∧ [RunState.running, .halted].map runStateBit = [0, 1] := by
  decide

/-! ### The drivers (section 2.7) and the host -/

/-- KV3: no trigger is needed for a single HALT word. -/
theorem test_single_step_halt :
    (fun r : RunReport => (r.ending, r.steps, r.waits)) (singleStep 2 (machine [0, 0, 0, 1] 0 0) [])
      = (.returned .ok, 1, 0) := by
  decide

/-- KV4, KV5, KV6: two NOOP words over two lines, one line, and an ended stream. -/
theorem test_single_step_waits :
    [[.line [], .line []], [.line [0x41]], [.endOfStream]].map
        (fun q => (fun r : RunReport => (r.ending, r.steps, r.waits)) (singleStep 3 (machine (leBytes 8 0) 0 0) q))
      = [(.returned (.failed .endOfMemory), 2, 2), (.blocked, 2, 2), (.returned (.failed .endOfMemory), 2, 2)] := by
  decide

/-- Scenario D's preload: the bytes of 12. -/
theorem test_preload :
    (match preload 0 12 State.reset with
      | .ok s => s.regs.slots.head?
      | .error _ => none) = some [0x0C, 0, 0, 0, 0, 0, 0, 0] := by
  decide

/-! ### Inputs that meet the hypotheses of the statements -/

theorem witness_DecodeOfEncodeIsIdentity : (Instr.unknown 0x05 0xFFFFFF).wf = true ∧ (Instr.jump 0).wf = true := by decide

theorem witness_MemReadIsLittleEndianSum :
    4 + 4 ≤ (memoryOfImage (leBytes 8 0)).size ∧ (memoryOfImage (leBytes 8 0)).size < 5 + 4 := by decide

theorem witness_FetchedWordIsFourBytesLittleEndian :
    ∃ s : State, s.mem.read (4 * s.pc.toNat) = some 0x11 ∧ s.mem.read (4 * s.pc.toNat + 1) = some 0x22 ∧
      s.mem.read (4 * s.pc.toNat + 2) = some 0x33 ∧ s.mem.read (4 * s.pc.toNat + 3) = some 0x00 :=
  ⟨machine [0, 0, 0, 0, 0x11, 0x22, 0x33, 0x00] 1 0, by decide⟩

theorem witness_ByteOrderIsLittleEndian :
    (machine [0x11, 0x22, 0x33, 0x44] 0 0).fetchWord = some 0x44332211 ∧ 3 < 4 ∧
      (machine [] 0 0x8877665544332211).regs.read 0 = some 0x8877665544332211 ∧ 7 < 8 := by
  decide

theorem witness_MemoriesThatReadAlikeAreEqual :
    (memoryOfImage [0, 7, 0, 9]).wf = true ∧ Memory.wf { size := 4, cells := [(1, 7), (3, 9)] } = true ∧
      (∀ a, (memoryOfImage [0, 7, 0, 9]).read a = Memory.read { size := 4, cells := [(1, 7), (3, 9)] } a) ∧
      (memoryOfImage [0, 7, 0, 9]).size = 4 :=
  ⟨by decide, by decide +kernel, fun _ => rfl, rfl⟩

theorem witness_StepRunsTheDecodedInstruction :
    ∃ s : State, s.legal = true ∧ s.runState = .running ∧ s.mem.readBytes (4 * s.pc.toNat) 4 = some [0xEF, 0xCD, 0xAB, 0x03]
      ∧ decodeBytes [0xEF, 0xCD, 0xAB, 0x03] = .ok (.load 0xABCDEF, []) :=
  ⟨machine [0xEF, 0xCD, 0xAB, 0x03] 0 0, by decide⟩

theorem witness_StepOfLegalMachineIsNextOrEndOfMemory :
    (machine [0, 0, 0, 4] 0 0).legal = true ∧ (machine [0, 0, 0, 4] 1 0).legal = true := by decide

theorem witness_EndOfMemoryExactlyPastTheLastWord :
    (machine [0, 0, 0, 4] 1 0).legal = true ∧ faultOf (step (machine [0, 0, 0, 4] 1 0)) = some .endOfMemory := by decide

theorem witness_StepOfHaltedMachineIsIdentity :
    ∃ s : State, s.legal = true ∧ s.runState = .halted :=
  ⟨{ machine [0, 0, 0, 4] 1 0 with runState := .halted }, by decide⟩

theorem witness_StepAtLengthOfMemoryFails :
    ∃ s : State, s.legal = true ∧ s.runState = .running ∧ 4 * s.pc.toNat = s.mem.size :=
  ⟨machine [0, 0, 0, 4] 1 0, by decide⟩

/-- One configuration for each constraint of rule R4, and a state with one of them. -/
theorem witness_IllegalConfigurationIsRefused :
    ([⟨1026, 4, 8⟩, ⟨2 ^ 64, 4, 8⟩, ⟨1024, 0, 8⟩, ⟨1024, 4, 7⟩] : List Config).all
        (fun c => !decide (c.memBytes % 4 = 0 ∧ c.memBytes ≤ 2 ^ 64 - 4 ∧ 1 ≤ c.nregs ∧ 8 ≤ c.regBytes)) = true
      ∧ (machine [0, 0, 0] 0 0).config = ⟨3, 4, 8⟩ := by
  decide

theorem witness_JumpSetsPcToSlotZeroDividedByFour :
    (machine [] 0 15).legal = true ∧ ({ width := 8, slots := [] } : RegFile).read 0 = none := by decide

theorem witness_JumpToAlignedAddressIsExact :
    (machine [] 0 0xFFFFFFFFFFFFFFFC).regs.slots[0]? = some [0xFC, 0xFF, 0xFF, 0xFF, 0xFF, 0xFF, 0xFF, 0xFF]
      ∧ (0xFC + 0xFF * 2 ^ 8 + 0xFF * 2 ^ 16 + 0xFF * 2 ^ 24 + 0xFF * 2 ^ 32 + 0xFF * 2 ^ 40 + 0xFF * 2 ^ 48
          + 0xFF * 2 ^ 56) % 4 = 0 := by
  decide

/-- The first unknown opcode, in the last word of memory. -/
theorem witness_DefaultAdvanceOfEveryOtherOpcode :
    ∃ s : State, s.legal = true ∧ s.runState = .running ∧ s.mem.read (4 * s.pc.toNat + 3) = some 0x05 ∧
      (0x05 : Byte) ≠ 0x01 ∧ (0x05 : Byte) ≠ 0x04 ∧ s.pc.toNat + 1 = s.memWords :=
  ⟨machine [0, 0, 0, 1, 0, 0, 0, 5] 1 0, by decide⟩

theorem witness_UnknownOpcodesAreNoOps :
    ∃ s : State, s.legal = true ∧ s.runState = .running ∧ s.mem.read (4 * s.pc.toNat + 3) = some 0x05 ∧
      5 ≤ (0x05 : Byte).toNat ∧ s.fetchWord = some 0x05000000 :=
  ⟨machine [0, 0, 0, 5] 0 0, by decide⟩

theorem witness_StepOnHaltOpcode :
    ∃ s : State, s.legal = true ∧ s.runState = .running ∧ s.mem.read (4 * s.pc.toNat + 3) = some 0x01 :=
  ⟨machine [0, 0, 0, 1] 0 0, by decide⟩

theorem witness_StepOnJumpOpcode :
    ∃ s : State, s.legal = true ∧ s.runState = .running ∧ s.mem.read (4 * s.pc.toNat + 3) = some 0x04 :=
  ⟨machine [0, 0, 0, 4] 0 4, by decide⟩

theorem witness_ExecFrame :
    nextOf (exec (.jump 7) (machine [] 0 13)) = some { machine [] 0 13 with pc := 3 }
      ∧ nextOf (exec (.halt 7) (machine [] 0 13)) = some { machine [] 0 13 with runState := .halted } := by
  decide

theorem witness_PayloadHasNoEffect : (0x04000000 : Word) >>> 24 = (0x04FFFFFF : Word) >>> 24 := by decide

theorem witness_IrIsWrittenByTheFetchAndReadByNothing :
    (nextOf (step (machine [0, 0, 0, 1] 0 0))).isSome = true ∧ (machine [0, 0, 0, 1] 0 0).runState = .running
      ∧ (nextOf (step { machine [0, 0, 0, 1] 0 0 with runState := .halted })).isSome = true := by
  decide

theorem witness_RunsKeepMemoryAndRegisters :
    Reaches (machine [0, 0, 0, 1] 0 0) { machine [0, 0, 0, 1] 0 0 with ir := 0x01000000, runState := .halted } :=
  .step (.refl _) rfl

theorem witness_RunStateMovesForwardByHaltOnly :
    (nextOf (step (machine [0, 0, 0, 1] 0 0))).isSome = true
      ∧ Reaches { machine [0, 0, 0, 1] 0 0 with runState := .halted } { machine [0, 0, 0, 1] 0 0 with runState := .halted }
      ∧ (∃ s, construct ⟨4, 1, 8⟩ [0, 0, 0, 1] = .ok s) ∧ faultOf (step (machine [] 0 0)) = some .endOfMemory :=
  ⟨by decide, .refl _, ⟨_, rfl⟩, by decide⟩

/-- A construction and preload that reach the bound, and a machine whose step fails. -/
theorem witness_PcMovesInFourWaysAndStaysBounded :
    (∃ s t u, construct ⟨4, 1, 8⟩ [0, 0, 0, 4] = .ok s ∧ preload 0 0xFFFFFFFFFFFFFFFF s = .ok t ∧ Reaches t u
      ∧ u.pc.toNat = 2 ^ 62 - 1)
      ∧ (machine [0, 0, 0, 4] 1 0).legal = true ∧ (machine [0, 0, 0, 4] 1 0).runState = .running
      ∧ faultOf (step (machine [0, 0, 0, 4] 1 0)) = some .endOfMemory :=
  ⟨⟨_, _, _, rfl, rfl, .step (.refl _) rfl, by decide⟩, by decide⟩

/-- Both sides of the alternative: a JUMP word with the same `x[0]`, a NOOP word with another. -/
theorem witness_OnlyJumpReadsOnlySlotZero :
    (machine [0, 0, 0, 4] 0 12).legal = true
      ∧ State.legal { machine [0, 0, 0, 4] 0 12 with regs := { width := 8, slots := [leBytes 8 12] } } = true
      ∧ ({ width := 8, slots := [leBytes 8 12] } : RegFile).read 0 = (machine [0, 0, 0, 4] 0 12).regs.read 0
      ∧ (machine [0, 0, 0, 0] 0 12).mem.read 3 ≠ some 0x04 := by
  decide

theorem witness_StepKeepsInvariant :
    (machine [0, 0, 0, 1] 0 0).inv = true ∧ (nextOf (step (machine [0, 0, 0, 1] 0 0))).isSome = true := by decide

theorem witness_InvariantHoldsAfterConstructionAndPreload :
    (∃ s, construct ⟨4, 1, 8⟩ [0, 0, 0, 1] = .ok s) ∧ (machine [0, 0, 0, 1] 0 0).inv = true
      ∧ ∃ t, preload 3 7 (machine [0, 0, 0, 1] 0 0) = .ok t :=
  ⟨⟨_, rfl⟩, by decide, _, rfl⟩

theorem witness_ConstructionGivesTheResetState :
    (0 % 4 = 0 ∧ 0 ≤ 2 ^ 64 - 4 ∧ 1 ≤ 1 ∧ 8 ≤ 8 ∧ ([] : List Byte).length = 0)
      ∧ (4 % 4 = 0 ∧ 4 ≤ 2 ^ 64 - 4 ∧ 1 ≤ 2 ∧ 8 ≤ 9 ∧ ([0, 0, 0, 1] : List Byte).length = 4) := by
  decide

theorem witness_PreloadSetsOneSlot : (machine [] 0 0).legal = true ∧ 3 < (machine [] 0 0).regs.slots.length := by
  decide

/-- One block for each alternative on the phase. -/
theorem witness_HostAccessesInTheirTurn :
    ∃ b : Phase → Block, (b (.stepping .runToHalt)).phase = .stepping .runToHalt ∧ (b .waiting).phase = .waiting ∧
      (b (.returned .ok)).phase = .returned .ok ∧ (b .idle).phase = .idle ∧ (b .idle).machine.legal = true ∧
      0 < (b .idle).machine.regs.slots.length :=
  ⟨fun p => { machine := machine [0, 0, 0, 1] 0 0, phase := p, triggers := [] }, rfl, rfl, rfl, rfl, by decide,
    by decide⟩

theorem witness_PlacedWordIsTheNextInstruction :
    ∃ s : State, s.legal = true ∧ s.mem.wf = true ∧ s.runState = .running ∧ 4 * s.pc.toNat + 4 ≤ s.mem.size :=
  ⟨machine [1, 2, 3, 4, 5, 6, 7, 8] 1 0, by decide⟩

/-- Every ending, with and without a step. -/
theorem witness_RunToHaltStepsUntilHaltedOrFailure :
    (runToHalt 2 (machine [0, 0, 0, 1] 0 0)).ending = .returned .ok
      ∧ (runToHalt 1 { machine [0, 0, 0, 1] 0 0 with runState := .halted }).ending = .returned .ok
      ∧ (runToHalt 2 (machine [0, 0, 0, 0] 0 0)).ending = .returned (.failed .endOfMemory)
      ∧ (runToHalt 1 (machine [] 0 0)).ending = .returned (.failed .endOfMemory)
      ∧ (runToHalt 1 (machine [0, 0, 0] 0 0)).ending = .returned (.refused .configOutsideSpec)
      ∧ (runToHalt 1 (machine [0, 0, 0, 4] 0 0)).ending = .outOfFuel := by
  decide

/-- Every ending; out of fuel with the machine `Running` and with it `Halted`. -/
theorem witness_SingleStepIsRunToHaltWithWaits :
    (singleStep 2 (machine [0, 0, 0, 1] 0 0) []).ending = .returned .ok
      ∧ (singleStep 2 (machine [0, 0, 0, 0] 0 0) [.line []]).ending = .returned (.failed .endOfMemory)
      ∧ (singleStep 2 (machine [0, 0, 0, 0] 0 0) []).ending = .blocked
      ∧ (singleStep 1 (machine [0, 0, 0] 0 0) []).ending = .returned (.refused .configOutsideSpec)
      ∧ ((singleStep 1 (machine [0, 0, 0, 0] 0 0) [.line []]).ending, (singleStep 1 (machine [0, 0, 0, 0] 0 0) [.line []]).waits)
          = (.outOfFuel, 1)
      ∧ ((singleStep 1 (machine [0, 0, 0, 1] 0 0) []).ending, (singleStep 1 (machine [0, 0, 0, 1] 0 0) []).waits)
          = (.outOfFuel, 0) := by
  decide

theorem witness_DriversReturnAtOnceOnHaltedMachine : ∃ s : State, s.runState = .halted :=
  ⟨{ machine [] 0 0 with runState := .halted }, rfl⟩

/-- A legal machine whose run returns `Ok` after a step, and one whose run fails after a step. -/
theorem witness_RunsEndAsSpecified :
    (machine [0, 0, 0, 1] 0 0).legal = true ∧ (runToHalt 2 (machine [0, 0, 0, 1] 0 0)).steps = 1
      ∧ (machine [0, 0, 0, 0] 0 0).legal = true ∧ (runToHalt 2 (machine [0, 0, 0, 0] 0 0)).steps = 1 := by
  decide

/-- Over two NOOP words: blocked after one line, not blocked over two lines or an ended stream. -/
theorem witness_SingleStepConsumesOneEventPerWait :
    (singleStep 3 (machine (leBytes 8 0) 0 0) [.line []]).ending = .blocked
      ∧ TriggerEvent.endOfStream ∉ [.line [], .line []]
      ∧ (singleStep 3 (machine (leBytes 8 0) 0 0) [.line [], .line []]).ending ≠ .blocked
      ∧ (singleStep 3 (machine (leBytes 8 0) 0 0) [.endOfStream, .line []]).ending ≠ .blocked := by
  decide

/-- A halted machine outside rule R4 (log entry 11): both drivers return `ok`, and so does the block. -/
theorem witness_DriversReturnAtOnceOutsideSpec :
    State.legal { machine [0, 0, 0] 0 0 with runState := .halted } = false
      ∧ (runToHalt 1 { machine [0, 0, 0] 0 0 with runState := .halted }).ending = .returned .ok
      ∧ (singleStep 1 { machine [0, 0, 0] 0 0 with runState := .halted } []).ending = .returned .ok
      ∧ (Block.tick { machine := { machine [0, 0, 0] 0 0 with runState := .halted }, phase := .stepping .runToHalt,
                      triggers := [] }).phase = .returned .ok := by
  decide

theorem witness_EndedStreamRunsAsRunToHalt : TriggerEvent.endOfStream ∈ [.line [0x0A], .endOfStream] := by decide

theorem witness_JumpToItselfNeverReturns :
    ∃ s : State, s.legal = true ∧ s.runState = .running ∧ s.mem.read (4 * s.pc.toNat + 3) = some 0x04 ∧
      s.regs.read 0 = some 8 ∧ (8 : U64).toNat / 4 = s.pc.toNat :=
  ⟨machine (leBytes 8 0 ++ leBytes 4 0x04000000) 2 8, by decide⟩

theorem witness_BlockRunsTheDriverLoops :
    Block.quiet { machine := machine [0, 0, 0, 1] 0 0, phase := .idle, triggers := [] } = true
      ∧ Block.quiet { machine := machine [0, 0, 0, 1] 0 0, phase := .returned .ok, triggers := [] } = true := by
  decide

theorem witness_PausedDriverResumesOnAnyTrigger :
    ∃ b : Block, b.phase = .waiting ∧ b.triggers = [] :=
  ⟨{ machine := machine [] 0 0, phase := .waiting, triggers := [] }, rfl, rfl⟩

/-- A driver at the head of its loop over a machine that steps, one that is past the end, and one that is halted. -/
theorem witness_ActiveDriverIsNeverStalled :
    ∃ b : State → Block, (b (machine [0, 0, 0, 0] 0 0)).phase = .stepping .singleStep ∧
      (b (machine [0, 0, 0, 0] 0 0)).machine.legal = true ∧ (b (machine [0, 0, 0, 0] 0 0)).machine.runState = .running ∧
      (b (machine [] 0 0)).machine.legal = true ∧ (b (machine [] 0 0)).machine.runState = .running ∧
      (b { machine [] 0 0 with runState := .halted }).machine.legal = true ∧
      (b { machine [] 0 0 with runState := .halted }).machine.runState = .halted :=
  ⟨fun s => { machine := s, phase := .stepping .singleStep, triggers := [] }, by decide⟩

end Sys2Proof.Tests
end

/-! SUPPORT. Little-endian extraction: byte `k` of a byte sequence is bits `8k+7` to `8k` of the sequence's value
(rule R24), for any sequence that fits the width; then its two uses, the fetched word and a register slot. -/

namespace Sys2Proof

/-- Byte `k` is the digit of weight `256^k` of the little-endian value. -/
theorem leValue_div_mod (bs : List Byte) (k : Nat) (hk : k < bs.length) :
    leValue bs / 256 ^ k % 256 = bs[k].toNat := by
  induction bs generalizing k with
  | nil => cases hk
  | cons b bs ih =>
    have hb := b.isLt
    cases k with
    | zero =>
      simp only [leValue, Nat.pow_zero, List.getElem_cons_zero]
      omega
    | succ k =>
      have htail : leValue (b :: bs) / 256 = leValue bs := by
        simp only [leValue]
        omega
      rw [Nat.pow_succ', ← Nat.div_div_eq_div_mul, htail, List.getElem_cons_succ]
      exact ih k (Nat.lt_of_succ_lt_succ hk)

/-- A word wide enough for the sequence holds byte `k` at bits `8k+7` to `8k`. -/
theorem extractLsb'_ofNat_leValue {w : Nat} (bs : List Byte) (hw : 8 * bs.length ≤ w) (k : Nat) (hk : k < bs.length) :
    (BitVec.ofNat w (leValue bs)).extractLsb' (8 * k) 8 = bs[k] := by
  have hfit : leValue bs < 2 ^ w :=
    calc leValue bs < 256 ^ bs.length := leValue_lt bs
      _ = 2 ^ (8 * bs.length) := (Nat.pow_mul 2 8 _).symm
      _ ≤ 2 ^ w := Nat.pow_le_pow_right (by decide) hw
  apply BitVec.eq_of_toNat_eq
  rw [BitVec.extractLsb'_toNat, BitVec.toNat_ofNat, Nat.mod_eq_of_lt hfit, Nat.shiftRight_eq_div_pow, Nat.pow_mul]
  exact leValue_div_mod bs k hk

namespace Machine

/-- A slot that reads as `v` exists, has its 8 bytes, and `v` is their little-endian value (rule R8). -/
theorem RegFile.read_spec {r : RegFile} {i : Nat} {v : U64} (h : r.read i = some v) :
    ∃ slot, r.slots[i]? = some slot ∧ 8 ≤ slot.length ∧ v = BitVec.ofNat 64 (leValue (slot.take 8)) := by
  simp only [RegFile.read] at h
  split at h
  · rename_i slot hslot
    split at h
    · rename_i h8
      cases h
      exact ⟨slot, hslot, h8, rfl⟩
    · cases h
  · cases h

/-- Byte `k` of an existing slot is element `k` of its buffer (rule R8). -/
theorem RegFile.byte_of_slot {r : RegFile} {i : Nat} {slot : List Byte} (h : r.slots[i]? = some slot) (k : Nat) :
    r.byte i k = slot[k]? := by
  simp only [RegFile.byte, h]

/-- Rule R24 (a). -/
theorem read_of_fetchWord {s : State} {w : Word} (h : s.fetchWord = some w) {k : Nat} (hk : k < 4) :
    s.mem.read (s.byteAddress + k) = some (w.extractLsb' (8 * k) 8) := by
  obtain ⟨hsize, rfl⟩ := fetchWord_spec h
  have hin : s.byteAddress + k < s.mem.size := by omega
  rw [wordOfBytes, extractLsb'_ofNat_leValue _ (by simp) k (by simpa using hk), Memory.read, if_pos hin]
  simp

/-- Rule R24 (b). -/
theorem RegFile.byte_of_read {r : RegFile} {i : Nat} {v : U64} (h : r.read i = some v) {k : Nat} (hk : k < 8) :
    r.byte i k = some (v.extractLsb' (8 * k) 8) := by
  obtain ⟨slot, hslot, h8, rfl⟩ := RegFile.read_spec h
  have hlen : (slot.take 8).length = 8 := by simpa using h8
  rw [extractLsb'_ofNat_leValue _ (by omega) k (by omega), RegFile.byte_of_slot hslot, List.getElem_take]
  exact List.getElem?_eq_getElem (by omega)

/-- Settles O9: both clauses are the extraction of a byte from a little-endian value. -/
theorem byteOrderIsLittleEndian : Obligations.ByteOrderIsLittleEndian :=
  ⟨fun _ _ _ hw hk => read_of_fetchWord hw hk, fun _ _ _ _ hv hk => RegFile.byte_of_read hv hk⟩

end Machine

end Sys2Proof

/-! SUPPORT. The opcode byte and the payload in the spec's own words, shift and mask (rules R35, R37), and the decoder
in those words (rule R41). -/

namespace Sys2Proof

/-- Only 8 bits remain above the payload, so the mask of rule R37 takes nothing away. -/
theorem shiftRight_and_mask (w : Word) : (w >>> 24) &&& 0xFF#32 = w >>> 24 := by
  have hlt : w.toNat >>> 24 < 2 ^ 8 := by
    have := w.isLt
    rw [Nat.shiftRight_eq_div_pow]
    omega
  apply BitVec.eq_of_toNat_eq
  rw [BitVec.toNat_and, BitVec.toNat_ushiftRight]
  exact (Nat.and_two_pow_sub_one_eq_mod _ 8).trans (Nat.mod_eq_of_lt hlt)

/-- The opcode byte is the word without its payload bits (rule R37). -/
theorem shiftRight_toNat (w : Word) : (w >>> 24).toNat = (opcodeOf w).toNat := by
  rw [opcodeOf_toNat, BitVec.toNat_ushiftRight, Nat.shiftRight_eq_div_pow]

theorem setWidth_opcodeOf (w : Word) : (opcodeOf w).setWidth 32 = w >>> 24 := by
  apply BitVec.eq_of_toNat_eq
  have := (opcodeOf w).isLt
  rw [BitVec.toNat_setWidth, shiftRight_toNat]
  omega

/-- Words that agree above the payload have the same opcode byte. -/
theorem opcodeOf_eq_of_shiftRight_eq {w w' : Word} (h : w >>> 24 = w' >>> 24) : opcodeOf w = opcodeOf w' := by
  apply BitVec.eq_of_toNat_eq
  rw [← shiftRight_toNat, ← shiftRight_toNat, h]

theorem payloadOf_eq_setWidth (w : Word) : payloadOf w = w.setWidth 24 :=
  BitVec.setWidth_eq_extractLsb' (by decide) |>.symm

/-- A word is its four bytes, the lowest at the bottom (rule R36). -/
theorem word_eq_or_bytes (w : Word) :
    w = ((w.extractLsb' 0 8).setWidth 32 ||| (w.extractLsb' 8 8).setWidth 32 <<< 8
      ||| (w.extractLsb' 16 8).setWidth 32 <<< 16 ||| (w.extractLsb' 24 8).setWidth 32 <<< 24) := by
  apply BitVec.eq_of_getLsbD_eq
  intro k hk
  have hbyte : k < 8 ∨ (8 ≤ k ∧ k < 16) ∨ (16 ≤ k ∧ k < 24) ∨ 24 ≤ k := by omega
  rcases hbyte with h | ⟨h, h'⟩ | ⟨h, h'⟩ | h
  · simp [hk, h, show k < 16 by omega, show k < 24 by omega]
  · simp [hk, h', show ¬ k < 8 by omega, show k < 24 by omega, show k - 8 < 8 by omega, show 8 + (k - 8) = k by omega]
  · simp [hk, h', show ¬ k < 8 by omega, show ¬ k < 16 by omega, show ¬ k - 8 < 8 by omega, show k - 16 < 8 by omega,
      show 16 + (k - 16) = k by omega]
  · simp [hk, show ¬ k < 8 by omega, show ¬ k < 16 by omega, show ¬ k < 24 by omega, show ¬ k - 8 < 8 by omega,
      show ¬ k - 16 < 8 by omega, show k - 24 < 8 by omega, show 24 + (k - 24) = k by omega]

/-- The decoder's last case (rule R40). -/
theorem decodeWord_unknown {w : Word} (h : 5 ≤ (opcodeOf w).toNat) :
    decodeWord w = .unknown (opcodeOf w) (payloadOf w) := by
  rcases decodeWord_cases w with ⟨ho, -⟩ | ⟨ho, -⟩ | ⟨ho, -⟩ | ⟨ho, -⟩ | ⟨ho, -⟩ | ⟨-, hd⟩
  case inr.inr.inr.inr.inr => exact hd
  all_goals
    rw [ho] at h
    exact absurd h (by decide)

/-- Settles O2. -/
theorem opcodeIsTopByteAndMaskChangesNothing : Obligations.OpcodeIsTopByteAndMaskChangesNothing :=
  fun w => ⟨(setWidth_opcodeOf w).trans (shiftRight_and_mask w).symm, shiftRight_and_mask w⟩

/-- Settles O3: the masked shift is the opcode byte, and its value picks the same case on both sides. -/
theorem decodeSelectsClassByOpcode : Obligations.DecodeSelectsClassByOpcode := by
  intro w
  simp only [shiftRight_and_mask, shiftRight_toNat, ← payloadOf_eq_setWidth]
  rcases decodeWord_cases w with ⟨ho, hd⟩ | ⟨ho, hd⟩ | ⟨ho, hd⟩ | ⟨ho, hd⟩ | ⟨ho, hd⟩ | ⟨h5, hd⟩
  case inr.inr.inr.inr.inr =>
    rw [hd, if_neg (by omega), if_neg (by omega), if_neg (by omega), if_neg (by omega), if_neg (by omega),
      BitVec.ofNat_toNat, BitVec.setWidth_eq]
  all_goals simp [hd, ho]

end Sys2Proof

/-! SUPPORT. From a byte in memory to the word fetched, and from the word fetched to what the step does (rules R36, R38,
R40). -/

namespace Sys2Proof.Machine

/-- A byte that can be read lies inside memory (rule R28). -/
theorem Memory.lt_size_of_read {m : Memory} {a : Nat} {b : Byte} (h : m.read a = some b) : a < m.size := by
  simp only [Memory.read, Option.ite_none_right_eq_some] at h
  exact h.1

/-- Where the highest byte of the word at `pc` exists the whole word does, and that byte is its opcode (rule R36). -/
theorem fetchWord_of_read_opcode {s : State} {o : Byte} (h : s.mem.read (4 * s.pc.toNat + 3) = some o) :
    ∃ w, s.fetchWord = some w ∧ opcodeOf w = o := by
  have hin : s.pastEnd = false := by
    have htop := Memory.lt_size_of_read h
    have hword : ¬ 4 * s.pc.toNat + 4 > s.mem.size := by omega
    exact decide_eq_false hword
  obtain ⟨w, hw⟩ := Option.isSome_iff_exists.mp ((fetchWord_isSome_iff s).mpr hin)
  exact ⟨w, hw, Option.some.inj ((read_of_fetchWord hw (k := 3) (by decide)).symm.trans h)⟩

/-- What executing a decoded word does, by its opcode byte alone: `HALT`, `JUMP`, or the default advance
(rules R38, R50). -/
theorem exec_decodeWord (w : Word) (s : State) :
    exec (decodeWord w) s =
      if opcodeOf w = 0x01 then .next s.setHalted
      else if opcodeOf w = 0x04 then execJump 0 s
      else .next s.advance := by
  rcases decodeWord_cases w with ⟨ho, hd⟩ | ⟨ho, hd⟩ | ⟨ho, hd⟩ | ⟨ho, hd⟩ | ⟨ho, hd⟩ | ⟨h5, hd⟩
  case inr.inr.inr.inr.inr =>
    have h1 : opcodeOf w ≠ 0x01 := fun h => absurd (h ▸ h5) (by decide)
    have h4 : opcodeOf w ≠ 0x04 := fun h => absurd (h ▸ h5) (by decide)
    rw [hd, if_neg h1, if_neg h4]
    rfl
  all_goals
    rw [hd, ho]
    rfl

/-- Every instruction completes on a legal state: `JUMP` can read slot 0, the others need nothing (rule R4). -/
theorem exec_next_of_legal (i : Instr) {s : State} (h : s.legal = true) : ∃ t, exec i s = .next t := by
  cases i with
  | jump p =>
    obtain ⟨-, -, hslots, -, -⟩ := legal_spec h
    obtain ⟨a, ha⟩ := regs_read_isSome h hslots
    exact ⟨s.setPc (instrIndex a), by simp only [exec, execJump, jumpOperand, ha]⟩
  | noop p => exact ⟨s.advance, rfl⟩
  | halt p => exact ⟨s.setHalted, rfl⟩
  | move p => exact ⟨s.advance, rfl⟩
  | load p => exact ⟨s.advance, rfl⟩
  | unknown o p => exact ⟨s.advance, rfl⟩

/-- A legal running machine that fetches a word executes it with the word latched (rules R48 to R50). -/
theorem step_of_fetchWord {s : State} {w : Word} (hl : s.legal = true) (hr : s.runState = .running)
    (hw : s.fetchWord = some w) : step s = exec (decodeWord w) (s.latch w) := by
  have hin : s.pastEnd = false := (fetchWord_isSome_iff s).mp (by rw [hw]; rfl)
  simp [step, hl, hr, hin, hw]

/-- Settles O8: the opcode byte shows that the word is there, each byte read is its byte of the word (rule R24 (a)),
and the word is its four bytes. -/
theorem fetchedWordIsFourBytesLittleEndian : Obligations.FetchedWordIsFourBytesLittleEndian := by
  intro s b0 b1 b2 b3 h0 h1 h2 h3
  obtain ⟨w, hw, hopcode⟩ := fetchWord_of_read_opcode h3
  have byte_eq {k : Nat} {b : Byte} (hk : k < 4) (h : s.mem.read (4 * s.pc.toNat + k) = some b) :
      w.extractLsb' (8 * k) 8 = b :=
    Option.some.inj ((read_of_fetchWord hw hk).symm.trans h)
  refine ⟨w, hw, hopcode, ?_⟩
  rw [← byte_eq (k := 0) (by decide) h0, ← byte_eq (by decide) h1, ← byte_eq (by decide) h2, ← byte_eq (by decide) h3]
  exact word_eq_or_bytes w

/-- Settles O25: the decoder's last case is the default advance, and a legal machine completes whatever it fetches. -/
theorem unknownOpcodesAreNoOps : Obligations.UnknownOpcodesAreNoOps := by
  refine ⟨?_, fun _ _ _ _ => rfl, ?_⟩
  · intro s o hl hr ho h5
    obtain ⟨w, hw, rfl⟩ := fetchWord_of_read_opcode ho
    have hd := decodeWord_unknown h5
    refine ⟨w, hw, hd, ?_⟩
    rw [step_of_fetchWord hl hr hw, hd]
    rfl
  · intro s w hl hr hw
    rw [step_of_fetchWord hl hr hw]
    exact exec_next_of_legal _ (by rw [latch_legal, hl])

/-- Settles O26: what a decoded word does is given by its opcode byte alone. -/
theorem payloadHasNoEffect : Obligations.PayloadHasNoEffect := by
  intro s w w' h
  rw [exec_decodeWord, exec_decodeWord, opcodeOf_eq_of_shiftRight_eq h]

end Sys2Proof.Machine

/-! SUPPORT. The default advance: what it does to `pc` inside memory, where it may lead, and which words take it
(rules R47, R51). -/

namespace Sys2Proof.Machine

/-- The bounds check of phase 1 in instruction indices (rule R47). -/
theorem pastEnd_iff (s : State) : s.pastEnd = true ↔ s.memWords ≤ s.pc.toNat := by
  have hbytes : s.pastEnd = true ↔ s.mem.size < 4 * s.pc.toNat + 4 := decide_eq_true_iff
  have hwords : s.memWords = s.mem.size / 4 := rfl
  rw [hbytes, hwords]
  omega

/-- A step fails exactly on a legal running machine whose bounds check fails (rules R47, R72). -/
theorem step_eq_endOfMemory_iff (s : State) :
    step s = .fault .endOfMemory ↔ s.legal = true ∧ s.runState = .running ∧ s.pastEnd = true := by
  constructor
  · intro h
    obtain ⟨hl, hr, hp, -⟩ := step_fault_cases h
    exact ⟨hl, hr, hp⟩
  · rintro ⟨hl, hr, hp⟩
    simp [step, hl, hr, hp, raiseEndOfMemory]

/-- Where a legal machine can fetch, `pc + 1` is far below the wrap of 64 bits (rules R4 (a), R12 (b)). -/
theorem advance_pc_toNat {s : State} {w : Word} (hl : s.legal = true) (hw : s.fetchWord = some w) :
    s.advance.pc.toNat = s.pc.toNat + 1 := by
  obtain ⟨-, hsize, -⟩ := legal_spec hl
  have hword : 4 * s.pc.toNat + 4 ≤ s.mem.size := (fetchWord_spec hw).1
  have hfit : s.pc.toNat + 1 < 2 ^ 64 := by omega
  exact (BitVec.toNat_add s.pc 1).trans (Nat.mod_eq_of_lt hfit)

/-- Every opcode but `HALT`'s and `JUMP`'s latches its word and takes the default advance (rules R48, R51). -/
theorem step_eq_advance {s : State} {w : Word} (hl : s.legal = true) (hr : s.runState = .running)
    (hw : s.fetchWord = some w) (h1 : opcodeOf w ≠ 0x01) (h4 : opcodeOf w ≠ 0x04) :
    step s = .next (s.latch w).advance := by
  rw [step_of_fetchWord hl hr hw, exec_decodeWord, if_neg h1, if_neg h4]

/-- Settles O21: the step is the default advance, which cannot wrap inside memory; an advance to `MEM_WORDS` leaves a
legal running machine whose bounds check fails. -/
theorem defaultAdvanceOfEveryOtherOpcode : Obligations.DefaultAdvanceOfEveryOtherOpcode := by
  intro s o hl hr ho h1 h4
  obtain ⟨w, hw, rfl⟩ := fetchWord_of_read_opcode ho
  have hpc : (s.latch w).advance.pc.toNat = s.pc.toNat + 1 := advance_pc_toNat (s := s.latch w) hl hw
  refine ⟨w, (s.latch w).advance, hw, step_eq_advance hl hr hw h1 h4, rfl, hpc, by omega, fun hlast => ?_⟩
  have hend : (s.latch w).advance.pc.toNat = (s.latch w).advance.memWords := hpc.trans hlast
  exact ⟨hend, (step_eq_endOfMemory_iff _).mpr ⟨hl, hr, (pastEnd_iff _).mpr hend.ge⟩⟩

end Sys2Proof.Machine

/-! SUPPORT. What one step of a running machine does, in the words of the opcode byte, and what it keeps (rules R46 to
R54). -/

namespace Sys2Proof.Machine

/-- Everything a running machine's step can do when it answers a next state: the word at `pc` is latched, and its opcode
byte picks `HALT`, `JUMP` or the default advance (rules R48 to R51). -/
theorem step_running_cases {s t : State} (hr : s.runState = .running) (hs : step s = .next t) :
    ∃ w, s.fetchWord = some w ∧
      ((opcodeOf w = 0x01 ∧ t = (s.latch w).setHalted)
        ∨ (opcodeOf w = 0x04 ∧ ∃ a, s.regs.read 0 = some a ∧ t = (s.latch w).setPc (instrIndex a))
        ∨ (opcodeOf w ≠ 0x01 ∧ opcodeOf w ≠ 0x04 ∧ t = (s.latch w).advance)) := by
  obtain ⟨-, ⟨hh, -⟩ | ⟨-, -, w, hw, he⟩⟩ := step_next_cases hs
  · rw [hr] at hh
    cases hh
  refine ⟨w, hw, ?_⟩
  rw [exec_decodeWord] at he
  split at he
  · cases he
    exact .inl ⟨‹_›, rfl⟩
  · split at he
    · obtain ⟨-, h, -⟩ | ⟨⟨_, h⟩, -⟩ | ⟨-, a, ha, ht⟩ := exec_cases (i := .jump 0) he
      · exact absurd rfl (h 0)
      · cases h
      · exact .inr (.inl ⟨‹_›, a, ha, ht⟩)
    · cases he
      exact .inr (.inr ⟨‹_›, ‹_›, rfl⟩)

/-- A step of a running machine keeps memory, registers and with them the configuration, and leaves the word it fetched
in `ir` (rules R14, R54). -/
theorem step_running_keeps {s t : State} (hr : s.runState = .running) (hs : step s = .next t) :
    t.mem = s.mem ∧ t.regs = s.regs ∧ t.legal = s.legal ∧ s.fetchWord = some t.ir := by
  obtain ⟨w, hw, ⟨-, rfl⟩ | ⟨-, a, -, rfl⟩ | ⟨-, -, rfl⟩⟩ := step_running_cases hr hs
  all_goals simp [hw]

/-- A running machine becomes halted only by a HALT word, on which it stays (rules R15, R59). -/
theorem step_running_halts {s t : State} (hr : s.runState = .running) (hs : step s = .next t)
    (ht : t.runState = .halted) : t.fetchWord = some t.ir ∧ opcodeOf t.ir = 0x01 := by
  obtain ⟨w, hw, ⟨ho, rfl⟩ | ⟨-, a, -, rfl⟩ | ⟨-, -, rfl⟩⟩ := step_running_cases hr hs
  · exact ⟨by simp [hw], by simpa using ho⟩
  all_goals simp [hr] at ht

/-- A legal running machine completes its step or fails with `EndOfMemory` past the end; it is never refused
(rules R4, R53). -/
theorem step_of_legal_running {s : State} (hl : s.legal = true) (hr : s.runState = .running) :
    (∃ t, step s = .next t) ∨ (step s = .fault .endOfMemory ∧ s.memWords ≤ s.pc.toNat) := by
  cases hp : s.pastEnd with
  | true => exact .inr ⟨(step_eq_endOfMemory_iff s).mpr ⟨hl, hr, hp⟩, (pastEnd_iff s).mp hp⟩
  | false =>
    obtain ⟨w, hw⟩ := Option.isSome_iff_exists.mp ((fetchWord_isSome_iff s).mpr hp)
    rw [step_of_fetchWord hl hr hw]
    exact .inl (exec_next_of_legal _ (by rw [latch_legal, hl]))

end Sys2Proof.Machine

/-! SUPPORT. The two driver loops and how their runs end (rules R62, R63, R66, R68): how each way to stop meets
rule R68, that a step before a run keeps rule R68, and the two inductions on the fuel. -/

namespace Sys2Proof.Machine

/-- Settles O41: the first turn of either loop tests `run_state` and returns. -/
theorem driversReturnAtOnceOnHaltedMachine : Obligations.DriversReturnAtOnceOnHaltedMachine :=
  fun n _ q h => ⟨runToHalt_halted n h, singleStep_halted n q h⟩

namespace RunReport

/-- A driver that has not returned owes rule R68 only the machine's memory and registers. -/
theorem endsAsSpecified_stop_unreturned {e : RunEnd} (s : State) (q : List TriggerEvent)
    (he : ∀ o, e ≠ .returned o) : (stop e s q).endsAsSpecified s :=
  ⟨fun _ => he _, rfl, rfl, fun h => absurd h (he _), fun _ h => absurd h (he _)⟩

/-- The success row of rule R68 with no step taken. -/
theorem endsAsSpecified_stop_ok {s : State} (q : List TriggerEvent) (h : s.runState = .halted) :
    (stop (.returned .ok) s q).endsAsSpecified s :=
  ⟨nofun, rfl, rfl, fun _ => ⟨h, fun _ => rfl, nofun⟩, nofun⟩

/-- The failure row of rule R68 with no step taken. -/
theorem endsAsSpecified_stop_endOfMemory {s : State} (q : List TriggerEvent) (hr : s.runState = .running)
    (hp : s.memWords ≤ s.pc.toNat) : (stop (.returned (.failed .endOfMemory)) s q).endsAsSpecified s :=
  ⟨nofun, rfl, rfl, nofun, fun _ h => by cases h; exact ⟨rfl, hr, hp, fun _ => rfl, nofun⟩⟩

/-- A successful step before a run that ends as rule R68 says. Where the run takes no step of its own, this step is the
last one, and `ir` and the HALT word are what it fetched. -/
theorem endsAsSpecified_after {s s' : State} {r : RunReport} (waits : Nat) (hr : s.runState = .running)
    (hs : step s = .next s') (h : r.endsAsSpecified s') : (r.after 1 waits).endsAsSpecified s := by
  obtain ⟨hmem, hregs, -, hfetched⟩ := step_running_keeps hr hs
  obtain ⟨hrefused, hmem', hregs', hok, hfailed⟩ := h
  refine ⟨hrefused, hmem'.trans hmem, hregs'.trans hregs, fun he => ?_, fun f he => ?_⟩
  · obtain ⟨hhalted, hstart, hlast⟩ := hok he
    refine ⟨hhalted, nofun, fun _ => ?_⟩
    obtain h0 | hpos := Nat.eq_zero_or_pos r.steps
    · have hm : (r.after 1 waits).machine = s' := hstart h0
      rw [hm]
      exact step_running_halts hr hs (hstart h0 ▸ hhalted)
    · exact hlast hpos
  · obtain ⟨hf, hrunning, hpast, hstart, hlast⟩ := hfailed f he
    refine ⟨hf, hrunning, hpast, nofun, fun _ => ?_⟩
    obtain h0 | hpos := Nat.eq_zero_or_pos r.steps
    · refine ⟨s, ?_, ?_⟩
      · rw [after_steps, h0]
        exact core_run_zero s
      · rw [after_machine, hstart h0, hfetched]
    · obtain ⟨t, ht, hir⟩ := hlast hpos
      have hsteps : (r.after 1 waits).steps - 1 = (r.steps - 1) + 1 := by
        rw [after_steps]
        omega
      exact ⟨t, by rw [hsteps, core_run_succ_next _ hs, ht], hir⟩

end RunReport

open RunReport

/-- Rule R68 for the run-to-halt driver, turn by turn of its loop. -/
theorem runToHalt_endsAsSpecified (n : Nat) {s : State} (hl : s.legal = true) :
    (runToHalt n s).endsAsSpecified s := by
  induction n generalizing s with
  | zero => exact endsAsSpecified_stop_unreturned s [] nofun
  | succ n ih =>
    cases hr : s.runState with
    | halted =>
      rw [runToHalt_halted n hr]
      exact endsAsSpecified_stop_ok [] hr
    | running =>
      obtain ⟨s', hs⟩ | ⟨hs, hp⟩ := step_of_legal_running hl hr
      · obtain ⟨-, -, hlegal, -⟩ := step_running_keeps hr hs
        rw [runToHalt_next n hr hs]
        exact endsAsSpecified_after 0 hr hs (ih (hlegal.trans hl))
      · rw [runToHalt_fault n hr hs]
        exact endsAsSpecified_stop_endOfMemory [] hr hp

/-- Rule R68 for the single-step driver: a wait changes the events and nothing of the machine. -/
theorem singleStep_endsAsSpecified (n : Nat) {s : State} (q : List TriggerEvent) (hl : s.legal = true) :
    (singleStep n s q).endsAsSpecified s := by
  induction n generalizing s q with
  | zero => exact endsAsSpecified_stop_unreturned s q nofun
  | succ n ih =>
    cases hr : s.runState with
    | halted =>
      rw [singleStep_halted n q hr]
      exact endsAsSpecified_stop_ok q hr
    | running =>
      obtain ⟨s', hs⟩ | ⟨hs, hp⟩ := step_of_legal_running hl hr
      · obtain ⟨-, -, hlegal, -⟩ := step_running_keeps hr hs
        have hl' : s'.legal = true := hlegal.trans hl
        obtain ⟨hhalted, hresumed, hblocked⟩ := singleStep_next n q hr hs
        cases hr' : s'.runState with
        | halted =>
          rw [hhalted hr']
          exact endsAsSpecified_after 0 hr hs (ih q hl')
        | running =>
          cases hq : waitTrigger q with
          | some q' =>
            rw [hresumed q' hr' hq]
            exact endsAsSpecified_after 1 hr hs (ih q' hl')
          | none =>
            rw [hblocked hr' hq]
            exact endsAsSpecified_after 1 hr hs (endsAsSpecified_stop_unreturned s' q nofun)
      · rw [singleStep_fault n q hr hs]
        exact endsAsSpecified_stop_endOfMemory q hr hp

/-- Settles O45. -/
theorem runsEndAsSpecified : Obligations.RunsEndAsSpecified :=
  fun n _ q hl => ⟨runToHalt_endsAsSpecified n hl, singleStep_endsAsSpecified n q hl⟩

end Sys2Proof.Machine

/-! SUPPORT. Encoding and decoding are inverse to each other (rules R41, R43), on words and on bytes, and the rows of
the opcode map against the decoder (rule R42). -/

namespace Sys2Proof

@[simp] theorem opcodeOf_encode (i : Instr) : opcodeOf (encode i) = i.opcode := opcodeOf_wordOfFields _ _

@[simp] theorem payloadOf_encode (i : Instr) : payloadOf (encode i) = i.payload := payloadOf_wordOfFields _ _

/-- Rule R43 undone by rule R41. The check `wf` is what keeps an `unknown` out of the five named cases. -/
theorem decodeWord_encode {i : Instr} (h : i.wf = true) : decodeWord (encode i) = i := by
  cases i with
  | unknown o p =>
    have h5 : 5 ≤ (opcodeOf (encode (.unknown o p))).toNat := by simpa [Instr.wf, Instr.opcode] using h
    rw [decodeWord_unknown h5, opcodeOf_encode, payloadOf_encode]
    rfl
  | _ => simp [decodeWord, Instr.opcode, Instr.payload]

/-- The four little-endian bytes of a word make the word (rule R36). -/
theorem wordOfBytes_leBytes (w : Word) : wordOfBytes (leBytes instrBytes w.toNat) = w := by
  have hfit : w.toNat % 256 ^ instrBytes = w.toNat := Nat.mod_eq_of_lt w.isLt
  rw [wordOfBytes, leValue_leBytes, hfit, BitVec.ofNat_toNat, BitVec.setWidth_eq]

/-- A word laid out before any further bytes is decoded and taken off (rules R34, R36). -/
theorem decodeBytes_leBytes (w : Word) (rest : List Byte) :
    decodeBytes (leBytes instrBytes w.toNat ++ rest) = .ok (decodeWord w, rest) :=
  calc decodeBytes (leBytes instrBytes w.toNat ++ rest)
      = .ok (decodeWord (wordOfBytes (leBytes instrBytes w.toNat)), rest) := rfl
    _ = .ok (decodeWord w, rest) := by rw [wordOfBytes_leBytes]

/-- The table's numbering of a word is its value. -/
theorem decodeTableWord_toNat (w : Word) : decodeTableWord 32 w.toNat = some (decodeWord w) := by
  have h := decodeBytes_leBytes w []
  rw [List.append_nil] at h
  rw [decodeTableWord, Nat.mod_eq_of_lt w.isLt, h]

/-- Settles O4: all three forms decode the word of `i`. -/
theorem decodeOfEncodeIsIdentity : Obligations.DecodeOfEncodeIsIdentity := by
  intro i hi
  have hword := decodeWord_encode hi
  refine ⟨hword, fun rest => ?_, ?_⟩
  · rw [encodeBytes, decodeBytes_leBytes, hword]
  · rw [decodeTableWord_toNat, hword]

/-- The decoder keeps both fields of the word (rules R35, R41). -/
theorem fields_decodeWord (w : Word) :
    (decodeWord w).opcode = opcodeOf w ∧ (decodeWord w).payload = payloadOf w := by
  rcases decodeWord_cases w with ⟨ho, hd⟩ | ⟨ho, hd⟩ | ⟨ho, hd⟩ | ⟨ho, hd⟩ | ⟨ho, hd⟩ | ⟨-, hd⟩
  case inr.inr.inr.inr.inr =>
    rw [hd]
    exact ⟨rfl, rfl⟩
  all_goals
    rw [hd, ho]
    exact ⟨rfl, rfl⟩

theorem encode_decodeWord (w : Word) : encode (decodeWord w) = w := by
  obtain ⟨hopcode, hpayload⟩ := fields_decodeWord w
  rw [encode, hopcode, hpayload, wordOfFields_fields]

/-- The decoder answers `unknown` only for the opcode bytes that name no instruction (rule R40). -/
theorem wf_decodeWord (w : Word) : (decodeWord w).wf = true := by
  rcases decodeWord_cases w with ⟨-, hd⟩ | ⟨-, hd⟩ | ⟨-, hd⟩ | ⟨-, hd⟩ | ⟨-, hd⟩ | ⟨h5, hd⟩
  case inr.inr.inr.inr.inr =>
    rw [hd]
    exact decide_eq_true h5
  all_goals
    rw [hd]
    rfl

/-- Settles O5. -/
theorem encodeOfDecodeIsIdentity : Obligations.EncodeOfDecodeIsIdentity :=
  fun w => ⟨wf_decodeWord w, encode_decodeWord w⟩

/-- A mask without payload bits sees the opcode byte of a word alone. -/
theorem and_mask_eq_of_payloadOf_eq_zero {mask : Word} (hmask : payloadOf mask = 0) (w : Word) :
    w &&& mask = wordOfFields (opcodeOf w) 0 &&& mask := by
  apply BitVec.eq_of_getLsbD_eq
  intro k hk
  by_cases hlow : k < 24
  · have hbit : mask.getLsbD k = false := by
      have := congrArg (fun p : Payload => p.getLsbD k) hmask
      simpa [payloadOf, hlow] using this
    rw [BitVec.getLsbD_and, BitVec.getLsbD_and, hbit, Bool.and_false, Bool.and_false]
  · have hbyte : k - 24 < 8 := by omega
    have hbit : 24 + (k - 24) = k := by omega
    simp [opcodeOf, wordOfFields, hlow, hk, hbyte, hbit]

/-- The mnemonic is a matter of the opcode byte (rules R39, R41). -/
theorem mnemonic_decodeWord_of_opcodeOf_eq {w w' : Word} (h : opcodeOf w = opcodeOf w') :
    (decodeWord w).mnemonic = (decodeWord w').mnemonic := by
  simp only [decodeWord, h]
  split <;> rfl

/-- The twelve rows against the decoder, on the 256 opcode bytes. -/
theorem opcodeTable_filter_opcode : ∀ o : Byte,
    (opcodeTable.filter (fun row => row.covers (wordOfFields o 0))).map (fun row => row.mnemonic)
      = [(decodeWord (wordOfFields o 0)).mnemonic] := by
  decide

/-- Settles O6: no row's mask has a payload bit, so rows and decoder see the opcode byte alone. -/
theorem everyWordMatchesExactlyOneTableRow : Obligations.EveryWordMatchesExactlyOneTableRow := by
  intro w
  have hmask : ∀ row ∈ opcodeTable, payloadOf row.mask = 0 := by decide
  have hcovers : ∀ row ∈ opcodeTable, row.covers w = row.covers (wordOfFields (opcodeOf w) 0) := fun row hrow => by
    rw [OpcodeRow.covers, OpcodeRow.covers, ← and_mask_eq_of_payloadOf_eq_zero (hmask row hrow)]
  rw [List.filter_congr hcovers, opcodeTable_filter_opcode,
    mnemonic_decodeWord_of_opcodeOf_eq (opcodeOf_wordOfFields (opcodeOf w) 0)]

/-- Settles O1. -/
theorem decodeReadsSampleWords : Obligations.DecodeReadsSampleWords := by
  unfold Obligations.DecodeReadsSampleWords
  decide

end Sys2Proof

/-! SUPPORT. What a memory reads: `MemRead` as a sum of bytes (rule R23), and canonical memories that read alike are the
same data (log entry 5). -/

namespace Sys2Proof

/-- The little-endian value as the sum that rule R23 writes. -/
theorem leValue_map_range' (f : Nat → Byte) (a n : Nat) :
    leValue ((List.range' a n).map f) = ∑ k ∈ Finset.range n, (f (a + k)).toNat * 2 ^ (8 * k) := by
  induction n generalizing a with
  | zero => rfl
  | succ n ih =>
    rw [List.range'_succ, List.map_cons, leValue, ih, Finset.sum_range_succ', Finset.mul_sum, Nat.add_comm]
    congr 1
    · refine Finset.sum_congr rfl fun k _ => ?_
      rw [show a + 1 + k = a + (k + 1) by omega, Nat.mul_succ, Nat.pow_add]
      ring
    · simp

namespace Machine

theorem Memory.read_of_lt {m : Memory} {a : Nat} (h : a < m.size) : m.read a = some (cellAt m.cells a) := if_pos h

/-- Settles O7: a range inside memory is read byte by byte, and one that leaves it is not read at all. -/
theorem memReadIsLittleEndianSum : Obligations.MemReadIsLittleEndianSum := by
  intro m addr n
  constructor
  · intro hin
    have hread : ∀ k, k < n → m.read (addr + k) = some (cellAt m.cells (addr + k)) :=
      fun k hk => Memory.read_of_lt (by omega)
    refine ⟨fun k hk => by rw [hread k hk]; rfl, ?_⟩
    rw [Memory.memRead, Memory.readBytes_spec.mpr ⟨hin, rfl⟩, Option.map_some, leValue_map_range']
    refine congrArg some (Finset.sum_congr rfl fun k hk => ?_)
    rw [hread k (Finset.mem_range.mp hk), Option.getD_some]
  · intro hout
    rw [Memory.memRead, Option.map_eq_none_iff, Option.eq_none_iff_forall_ne_some]
    intro bytes hbytes
    exact absurd (Memory.readBytes_spec.mp hbytes).1 (by omega)

theorem canonicalCells_cons_iff {hi lo a : Nat} {b : Byte} {rest : List Host.Cell} :
    canonicalCells hi lo ((a, b) :: rest) = true ↔
      lo ≤ a ∧ a < hi ∧ b ≠ unlistedByte ∧ canonicalCells hi (a + 1) rest = true := by
  simp only [canonicalCells, Bool.and_eq_true, decide_eq_true_eq, and_assoc]

/-- A listed byte shows: cells that start above its address do not read there as it does. -/
theorem cellAt_cons_ne_of_below {hi lo a : Nat} {b : Byte} {cells : List Host.Cell} (rest : List Host.Cell)
    (hb : b ≠ unlistedByte) (h : canonicalCells hi lo cells = true) (hlt : a < lo) :
    cellAt ((a, b) :: rest) a ≠ cellAt cells a := by
  rw [cellAt_below h hlt, cellAt, if_pos rfl]
  exact hb

/-- Canonical cells are determined by what they read as. -/
theorem cells_eq_of_cellAt_eq {hi lo lo' : Nat} {cs cs' : List Host.Cell} (h : canonicalCells hi lo cs = true)
    (h' : canonicalCells hi lo' cs' = true) (hread : ∀ x, x < hi → cellAt cs x = cellAt cs' x) : cs = cs' := by
  induction cs generalizing lo lo' cs' with
  | nil =>
    cases cs' with
    | nil => rfl
    | cons c' rest' =>
      obtain ⟨-, hhi', hb', -⟩ := canonicalCells_cons_iff.mp h'
      have hnil : canonicalCells hi (c'.1 + 1) [] = true := rfl
      exact absurd (hread c'.1 hhi').symm (cellAt_cons_ne_of_below rest' hb' hnil (Nat.lt_succ_self _))
  | cons c rest ih =>
    obtain ⟨a, b⟩ := c
    obtain ⟨-, hhi, hb, hrest⟩ := canonicalCells_cons_iff.mp h
    cases cs' with
    | nil =>
      have hnil : canonicalCells hi (a + 1) [] = true := rfl
      exact absurd (hread a hhi) (cellAt_cons_ne_of_below rest hb hnil (Nat.lt_succ_self _))
    | cons c' rest' =>
      obtain ⟨a', b'⟩ := c'
      obtain ⟨-, hhi', hb', hrest'⟩ := canonicalCells_cons_iff.mp h'
      obtain hlt | rfl | hlt := Nat.lt_trichotomy a a'
      · have hfrom : canonicalCells hi a' ((a', b') :: rest') = true :=
          canonicalCells_cons_iff.mpr ⟨Nat.le_refl _, hhi', hb', hrest'⟩
        exact absurd (hread a hhi) (cellAt_cons_ne_of_below rest hb hfrom hlt)
      · have hhead : b = b' := by simpa [cellAt] using hread a hhi
        have htail : rest = rest' := by
          refine ih hrest hrest' fun x hx => ?_
          by_cases hxa : a = x
          · rw [cellAt_below hrest (by omega), cellAt_below hrest' (by omega)]
          · simpa [cellAt, hxa] using hread x hx
        rw [hhead, htail]
      · have hfrom : canonicalCells hi a ((a, b) :: rest) = true :=
          canonicalCells_cons_iff.mpr ⟨Nat.le_refl _, hhi, hb, hrest⟩
        exact absurd (hread a' hhi').symm (cellAt_cons_ne_of_below rest' hb' hfrom hlt)

/-- Settles O10: inside memory a read is what the cells give, and canonical cells are determined by that. -/
theorem memoriesThatReadAlikeAreEqual : Obligations.MemoriesThatReadAlikeAreEqual := by
  intro m m' hm hm' hread hsize
  have hcells : m.cells = m'.cells := by
    have hcanonical' : canonicalCells m.size 0 m'.cells = true := by rwa [hsize]
    refine cells_eq_of_cellAt_eq hm hcanonical' fun x hx => ?_
    have h := hread x
    rw [Memory.read_of_lt hx, Memory.read_of_lt (hsize ▸ hx)] at h
    exact Option.some.inj h
  exact congrArg₂ Memory.mk hsize hcells

end Machine
end Sys2Proof

/-! SUPPORT. The step by its outcome: where it stops, where it is refused, and the whole step of each opcode
(rules R4, R46 to R60). -/

namespace Sys2Proof.Machine

/-- Settles O17: each of these arms is the default advance. -/
theorem noEffectInstructionsAdvanceByOne : Obligations.NoEffectInstructionsAdvanceByOne :=
  fun _ _ _ => ⟨rfl, rfl, rfl, rfl⟩

/-- Settles O18. -/
theorem haltSetsHaltedWithoutAdvance : Obligations.HaltSetsHaltedWithoutAdvance := fun _ _ => rfl

/-- `JUMP` on a state whose slot 0 can be read (rule R60). -/
theorem exec_jump_of_read {s : State} {a : U64} (p : Payload) (ha : s.regs.read 0 = some a) :
    exec (.jump p) s = .next (s.setPc (instrIndex a)) := by
  simp only [exec, execJump, jumpOperand, ha]

/-- Settles O19. -/
theorem jumpSetsPcToSlotZeroDividedByFour : Obligations.JumpSetsPcToSlotZeroDividedByFour := by
  intro s p
  constructor
  · intro hl
    obtain ⟨-, -, hslots, -, -⟩ := legal_spec hl
    obtain ⟨a, ha⟩ := regs_read_isSome hl hslots
    exact ⟨a, s.setPc (instrIndex a), ha, exec_jump_of_read p ha, instrIndex_toNat a, rfl⟩
  · intro hnone
    simp only [exec, execJump, jumpOperand, hnone]

/-- Settles O20: the slot reads as `A`, and a multiple of 4 is divided without a rest. -/
theorem jumpToAlignedAddressIsExact : Obligations.JumpToAlignedAddressIsExact := by
  intro s p b0 b1 b2 b3 b4 b5 b6 b7 more A hslot hA haligned
  have hvalue : leValue [b0, b1, b2, b3, b4, b5, b6, b7] = A := by
    simp only [leValue]
    omega
  have hfit : A < 2 ^ 64 := by simpa [hvalue] using leValue_lt [b0, b1, b2, b3, b4, b5, b6, b7]
  have hread : s.regs.read 0 = some (BitVec.ofNat 64 A) := by
    rw [← hvalue]
    simp [RegFile.read, hslot]
  refine ⟨_, exec_jump_of_read p hread, ?_, rfl⟩
  have htoNat : (BitVec.ofNat 64 A).toNat = A := Nat.mod_eq_of_lt hfit
  rw [setPc_pc, instrIndex_toNat, htoNat]
  omega

/-- Settles O24: the three things an instruction can do, field by field. -/
theorem execFrame : Obligations.ExecFrame := by
  intro i s t h
  obtain ⟨hhalt, -, rfl⟩ | ⟨⟨p, rfl⟩, rfl⟩ | ⟨⟨p, rfl⟩, a, -, rfl⟩ := exec_cases h
  · exact ⟨fun _ => rfl, rfl, rfl, rfl, fun _ => rfl, fun ⟨p, hp⟩ => absurd hp (hhalt p)⟩
  · exact ⟨fun _ => rfl, rfl, rfl, rfl, fun hne => absurd rfl (hne p), fun _ => rfl⟩
  · exact ⟨fun _ => rfl, rfl, rfl, rfl, fun _ => rfl, nofun⟩

/-- Decoding takes four bytes off the front and reads them as a word (rules R34, R41). -/
theorem decodeBytes_spec {bytes rest : List Byte} {i : Instr} (h : decodeBytes bytes = .ok (i, rest)) :
    ∃ b0 b1 b2 b3, bytes = b0 :: b1 :: b2 :: b3 :: rest ∧ i = decodeWord (wordOfBytes [b0, b1, b2, b3]) := by
  unfold decodeBytes at h
  split at h
  · cases h
    exact ⟨_, _, _, _, rfl, rfl⟩
  · cases h

/-- The word fetched is the word of the four bytes at `4 * pc` (rules R36, R48). -/
theorem fetchWord_of_readBytes {s : State} {bytes : List Byte}
    (h : s.mem.readBytes s.byteAddress instrBytes = some bytes) : s.fetchWord = some (wordOfBytes bytes) := by
  rw [State.fetchWord, Memory.memRead, h]
  rfl

/-- Settles O11: the bytes at `pc` are the word fetched, and the instruction decoded from them has that word. -/
theorem stepRunsTheDecodedInstruction : Obligations.StepRunsTheDecodedInstruction := by
  intro s bytes i hl hr hbytes hdecode
  have hw : s.fetchWord = some (wordOfBytes bytes) := fetchWord_of_readBytes hbytes
  have hi : decodeWord (wordOfBytes bytes) = i := by
    obtain ⟨b0, b1, b2, b3, rfl, rfl⟩ := decodeBytes_spec hdecode
    rfl
  rw [step_of_fetchWord hl hr hw, hi, ← hi, encode_decodeWord]
  rfl

/-- A step of a legal halted machine does nothing (rule R46). -/
theorem step_of_legal_halted {s : State} (hl : s.legal = true) (hh : s.runState = .halted) : step s = .next s := by
  simp [step, hl, hh]

/-- Settles O16. -/
theorem stepOfHaltedMachineIsIdentity : Obligations.StepOfHaltedMachineIsIdentity :=
  fun _ hl hh => step_of_legal_halted hl hh

/-- Settles O12. -/
theorem stepOfLegalMachineIsNextOrEndOfMemory : Obligations.StepOfLegalMachineIsNextOrEndOfMemory := by
  intro s hl
  cases hr : s.runState with
  | halted => exact .inl ⟨s, step_of_legal_halted hl hr⟩
  | running => exact (step_of_legal_running hl hr).imp_right And.left

/-- Settles O13: the bounds check in instruction indices, turned into byte addresses; `MEM_BYTES` is a multiple of 4. -/
theorem endOfMemoryExactlyPastTheLastWord : Obligations.EndOfMemoryExactlyPastTheLastWord := by
  intro s hl
  obtain ⟨hmod, -, -, -, -⟩ := legal_spec hl
  have hwords : s.memWords = s.mem.size / 4 := rfl
  have hstep : step s = .fault .endOfMemory ↔ s.runState = .running ∧ s.memWords ≤ s.pc.toNat := by
    rw [step_eq_endOfMemory_iff, pastEnd_iff]
    exact and_iff_right hl
  refine ⟨?_, ?_, hstep⟩
  · rw [hstep, hwords]
    exact and_congr_right fun _ => by omega
  · rw [hstep, hwords]
    exact and_congr_right fun _ => by omega

/-- Settles O14. -/
theorem stepAtLengthOfMemoryFails : Obligations.StepAtLengthOfMemoryFails := by
  intro s hl hr hend
  obtain ⟨-, hsize, -⟩ := endOfMemoryExactlyPastTheLastWord s hl
  exact hsize.mpr ⟨hr, hend.ge⟩

/-- A state outside rule R4 is refused. -/
theorem step_of_not_legal {s : State} (h : s.legal = false) : step s = .refused .configOutsideSpec := by
  simp [step, h]

/-- Settles O15: construction and step both begin with the check of rule R4. -/
theorem illegalConfigurationIsRefused : Obligations.IllegalConfigurationIsRefused := by
  intro c hc
  have hillegal : configLegal c = false := Bool.eq_false_iff.mpr fun h => hc ((configLegal_iff c).mp h)
  refine ⟨fun image => by simp [construct, hillegal], ?_⟩
  rintro s rfl
  exact step_of_not_legal (by rw [State.legal, hillegal, Bool.false_and])

/-- Settles O22. -/
theorem stepOnHaltOpcode : Obligations.StepOnHaltOpcode := by
  intro s hl hr ho
  obtain ⟨w, hw, hopcode⟩ := fetchWord_of_read_opcode ho
  refine ⟨w, hw, ?_⟩
  rw [step_of_fetchWord hl hr hw, exec_decodeWord, if_pos hopcode]
  rfl

/-- A JUMP word latches its word and sets `pc` to `x[0] div 4` (rules R48, R60). -/
theorem step_eq_setPc {s : State} {w : Word} {a : U64} (hl : s.legal = true) (hr : s.runState = .running)
    (hw : s.fetchWord = some w) (ho : opcodeOf w = 0x04) (ha : s.regs.read 0 = some a) :
    step s = .next ((s.latch w).setPc (instrIndex a)) := by
  have hne : opcodeOf w ≠ 0x01 := by rw [ho]; decide
  rw [step_of_fetchWord hl hr hw, exec_decodeWord, if_neg hne, if_pos ho]
  exact exec_jump_of_read 0 ha

/-- Settles O23: no target is checked by the jump; the next step's bounds check compares the target, an instruction
index, with `MEM_WORDS`. -/
theorem stepOnJumpOpcode : Obligations.StepOnJumpOpcode := by
  intro s hl hr ho
  obtain ⟨w, hw, hopcode⟩ := fetchWord_of_read_opcode ho
  obtain ⟨hmod, -, hslots, -, -⟩ := legal_spec hl
  obtain ⟨a, ha⟩ := regs_read_isSome hl hslots
  have hpc : ((s.latch w).setPc (instrIndex a)).pc.toNat = a.toNat / 4 := instrIndex_toNat a
  refine ⟨w, a, (s.latch w).setPc (instrIndex a), hw, ha, step_eq_setPc hl hr hw hopcode ha, rfl, hpc, ?_⟩
  obtain ⟨-, -, hend⟩ := endOfMemoryExactlyPastTheLastWord ((s.latch w).setPc (instrIndex a)) hl
  have hwords : ((s.latch w).setPc (instrIndex a)).memWords = s.mem.size / 4 := rfl
  rw [hend, hpc, hwords]
  exact (and_iff_right hr).trans (by omega)

end Sys2Proof.Machine

/-! SUPPORT. What every step and every run keeps: the latch, the run state, memory and registers, the program counter's
bound, and the machine's invariant (rules R9, R12, R14, R15, R19). -/

namespace Sys2Proof.Machine

/-- The opcode byte of the fetched word is the byte at `4 * pc + 3` (rule R36). -/
theorem read_opcode_of_fetchWord {s : State} {w : Word} (hw : s.fetchWord = some w) :
    s.mem.read (4 * s.pc.toNat + 3) = some (opcodeOf w) :=
  read_of_fetchWord hw (k := 3) (by decide)

/-- A step of a halted machine answers the machine itself (rule R46). -/
theorem step_halted_eq {s t : State} (hh : s.runState = .halted) (hs : step s = .next t) : t = s := by
  obtain ⟨-, ⟨-, rfl⟩ | ⟨hr, -⟩⟩ := step_next_cases hs
  · rfl
  · rw [hh] at hr
    cases hr

/-- Every step keeps memory, registers and with them the configuration (rules R4 (d), R9 (d), R19). -/
theorem step_keeps {s t : State} (hs : step s = .next t) : t.mem = s.mem ∧ t.regs = s.regs ∧ t.legal = s.legal := by
  cases hr : s.runState with
  | halted =>
    rw [step_halted_eq hr hs]
    exact ⟨rfl, rfl, rfl⟩
  | running =>
    obtain ⟨hmem, hregs, hlegal, -⟩ := step_running_keeps hr hs
    exact ⟨hmem, hregs, hlegal⟩

/-! ### The latch -/

/-- A running machine's step overwrites `ir` before anything could read it (rule R14). -/
theorem step_latch {s : State} (w : Word) (hr : s.runState = .running) : step (s.latch w) = step s := by
  cases hl : s.legal with
  | false => rw [step_of_not_legal hl, step_of_not_legal (s := s.latch w) hl]
  | true =>
    cases hp : s.pastEnd with
    | true =>
      rw [(step_eq_endOfMemory_iff s).mpr ⟨hl, hr, hp⟩, (step_eq_endOfMemory_iff (s.latch w)).mpr ⟨hl, hr, hp⟩]
    | false =>
      obtain ⟨v, hv⟩ := Option.isSome_iff_exists.mp ((fetchWord_isSome_iff s).mpr hp)
      rw [step_of_fetchWord hl hr hv, step_of_fetchWord (s := s.latch w) hl hr hv, latch_latch]

/-- Settles O27. -/
theorem irIsWrittenByTheFetchAndReadByNothing : Obligations.IrIsWrittenByTheFetchAndReadByNothing := by
  refine ⟨fun s t hs hr => ?_, fun s t hs hh => ?_, fun s w hr => step_latch w hr, fun s t w hh hs => ?_⟩
  · obtain ⟨-, -, -, hfetched⟩ := step_running_keeps hr hs
    exact hfetched
  · rw [step_halted_eq hh hs]
  · have hl : (s.latch w).legal = true := (step_next_cases hs).1
    rw [step_halted_eq hh hs]
    exact step_of_legal_halted hl hh

/-! ### Runs -/

/-- What no step changes, no run changes. -/
theorem reaches_keeps {P : State → Prop} (hstep : ∀ {s t}, step s = .next t → P s → P t) {s t : State}
    (h : Reaches s t) (hs : P s) : P t := by
  induction h with
  | refl => exact hs
  | step _ hlast ih => exact hstep hlast ih

/-- Settles O29. -/
theorem runsKeepMemoryAndRegisters : Obligations.RunsKeepMemoryAndRegisters := by
  intro s t h
  have hkept : t.mem = s.mem ∧ t.regs = s.regs := by
    refine reaches_keeps (P := fun u => u.mem = s.mem ∧ u.regs = s.regs) ?_ h ⟨rfl, rfl⟩
    rintro u v huv ⟨hmem, hregs⟩
    obtain ⟨hmem', hregs', -⟩ := step_keeps huv
    exact ⟨hmem'.trans hmem, hregs'.trans hregs⟩
  obtain ⟨hmem, hregs⟩ := hkept
  exact ⟨fun a => by rw [hmem], hmem, hregs⟩

/-- A construction that succeeds: a legal configuration, an image of its length, and the reset state over it
(rules R4, R20). -/
theorem construct_spec {c : Config} {image : List Byte} {s : State} (h : construct c image = .ok s) :
    configLegal c = true ∧ image.length = c.memBytes ∧
      s = { mem := memoryOfImage image, regs := zeroedRegisters c.nregs c.regBytes, pc := 0, ir := 0,
            runState := .running } := by
  simp only [construct] at h
  split at h
  · rename_i hc
    simp only [Bool.and_eq_true, beq_iff_eq] at hc
    cases h
    exact ⟨hc.1, hc.2, rfl⟩
  · cases h

/-- Settles O28. -/
theorem runStateMovesForwardByHaltOnly : Obligations.RunStateMovesForwardByHaltOnly := by
  refine ⟨fun s t hs => ?_, fun s t h hh => ?_, fun c image s h => ?_, fun s f hs => ?_, rfl, rfl⟩
  · cases hr : s.runState with
    | halted => simp [step_halted_eq hr hs, hr]
    | running =>
      obtain ⟨w, hw, hcases⟩ := step_running_cases hr hs
      rw [read_opcode_of_fetchWord hw]
      obtain ⟨ho, rfl⟩ | ⟨ho, a, -, rfl⟩ | ⟨ho, -, rfl⟩ := hcases
      · simp [ho]
      · simp [hr, ho]
      · simpa [hr] using ho
  · refine reaches_keeps (P := fun u => u = s) ?_ h rfl
    rintro u v huv rfl
    exact step_halted_eq hh huv
  · obtain ⟨-, -, rfl⟩ := construct_spec h
    rfl
  · obtain ⟨-, hr, -⟩ := step_fault_cases hs
    exact hr

/-! ### The registers -/

/-- Everything `JUMP` can do when it answers a next state (rule R60). -/
theorem execJump_spec {p : Payload} {s t : State} (h : execJump p s = .next t) :
    ∃ a, s.regs.read 0 = some a ∧ t = s.setPc (instrIndex a) := by
  simp only [execJump] at h
  split at h
  · cases h
    exact ⟨_, ‹_›, rfl⟩
  · cases h

/-- Execution of a fetched word over another register file with the same `x[0]`, or where the word is no JUMP: the
outcome differs only in the file it carries (rule R9). -/
theorem exec_decodeWord_withRegs {s t : State} {w : Word} {r : RegFile}
    (hread : r.read 0 = s.regs.read 0 ∨ opcodeOf w ≠ 0x04) (h : exec (decodeWord w) s = .next t) :
    exec (decodeWord w) { s with regs := r } = .next { t with regs := r } := by
  rw [exec_decodeWord] at h ⊢
  split at h
  · cases h
    rw [if_pos ‹_›]
    rfl
  · rw [if_neg ‹_›]
    split at h
    · rename_i ho
      obtain hsame | hne := hread
      · obtain ⟨a, ha, rfl⟩ := execJump_spec h
        rw [if_pos ho]
        exact exec_jump_of_read 0 (s := { s with regs := r }) (hsame.trans ha)
      · exact absurd ho hne
    · cases h
      rw [if_neg ‹_›]
      rfl

/-- Settles O30. -/
theorem onlyJumpReadsOnlySlotZero : Obligations.OnlyJumpReadsOnlySlotZero := by
  intro s r hl hl' hread
  constructor
  · intro t hs
    obtain ⟨-, ⟨hh, rfl⟩ | ⟨hr, -, w, hw, he⟩⟩ := step_next_cases hs
    · exact step_of_legal_halted hl' hh
    · rw [step_of_fetchWord (s := { s with regs := r }) hl' hr hw]
      refine exec_decodeWord_withRegs (s := s.latch w) (hread.imp_right fun hne ho => hne ?_) he
      rw [read_opcode_of_fetchWord hw, ho]
  · intro f hs
    obtain ⟨-, hr, hp, rfl⟩ := step_fault_cases hs
    exact (step_eq_endOfMemory_iff { s with regs := r }).mpr ⟨hl', hr, hp⟩

/-! ### The invariant and the bound of `pc` -/

/-- The invariant, part by part. -/
theorem inv_iff (s : State) : s.inv = true ↔
    s.legal = true ∧ s.mem.wf = true ∧ s.pc.toNat < 2 ^ 62 ∧
      (s.runState = .halted → s.fetchWord = some s.ir ∧ opcodeOf s.ir = 0x01) := by
  have hhalted : s.haltedOnHalt = true ↔
      (s.runState = .halted → s.fetchWord = some s.ir ∧ opcodeOf s.ir = 0x01) := by
    cases hr : s.runState <;> simp [State.haltedOnHalt, hr]
  simp only [State.inv, Bool.and_eq_true, decide_eq_true_eq, hhalted, and_assoc]

/-- The three ways a running machine's step moves `pc` (rule R12). -/
theorem step_running_pc {s t : State} (hr : s.runState = .running) (hs : step s = .next t) :
    ∃ w, s.fetchWord = some w ∧
      ((opcodeOf w = 0x01 ∧ t.pc = s.pc)
        ∨ (opcodeOf w = 0x04 ∧ ∃ a, s.regs.read 0 = some a ∧ t.pc.toNat = a.toNat / 4)
        ∨ (opcodeOf w ≠ 0x01 ∧ opcodeOf w ≠ 0x04 ∧ t.pc.toNat = s.pc.toNat + 1)) := by
  have hl : s.legal = true := (step_next_cases hs).1
  obtain ⟨w, hw, hcases⟩ := step_running_cases hr hs
  refine ⟨w, hw, ?_⟩
  obtain ⟨ho, rfl⟩ | ⟨ho, a, ha, rfl⟩ | ⟨h1, h4, rfl⟩ := hcases
  · exact .inl ⟨ho, rfl⟩
  · exact .inr (.inl ⟨ho, a, ha, instrIndex_toNat a⟩)
  · exact .inr (.inr ⟨h1, h4, advance_pc_toNat (s := s.latch w) hl hw⟩)

/-- A running machine's step leaves `pc` below `2^62`: unchanged, a quarter of a 64-bit value, or one past a word inside
memory (rule R12 (b), (c)). -/
theorem step_running_pc_lt {s t : State} (hr : s.runState = .running) (hs : step s = .next t)
    (hpc : s.pc.toNat < 2 ^ 62) : t.pc.toNat < 2 ^ 62 := by
  obtain ⟨-, hsize, -⟩ := legal_spec (step_next_cases hs).1
  obtain ⟨w, hw, ⟨-, hkept⟩ | ⟨-, a, -, hjumped⟩ | ⟨-, -, hadvanced⟩⟩ := step_running_pc hr hs
  · rwa [hkept]
  · have := a.isLt
    omega
  · have hword : 4 * s.pc.toNat + 4 ≤ s.mem.size := (fetchWord_spec hw).1
    omega

/-- Every step keeps the invariant: a halted machine does not move, and a running one halts only on its HALT word. -/
theorem step_keeps_inv {s t : State} (hs : step s = .next t) (hinv : s.inv = true) : t.inv = true := by
  cases hr : s.runState with
  | halted => rwa [step_halted_eq hr hs]
  | running =>
    obtain ⟨hl, hwf, hpc, -⟩ := (inv_iff s).mp hinv
    obtain ⟨hmem, -, hlegal⟩ := step_keeps hs
    exact (inv_iff t).mpr ⟨hlegal.trans hl, by rwa [hmem], step_running_pc_lt hr hs hpc, step_running_halts hr hs⟩

/-- Settles O31. -/
theorem stepKeepsInvariant : Obligations.StepKeepsInvariant := fun _ _ hinv hs => step_keeps_inv hs hinv

end Sys2Proof.Machine

/-! SUPPORT. What the host does to a machine no driver runs: construction, preload, and the placement of a word
(rules R9 (e), R20, R69, R82). -/

namespace Sys2Proof.Machine

/-! ### Construction -/

/-- Construction succeeds over every legal configuration and image of its length (rules R20, R82). -/
theorem construct_of_legal {c : Config} {image : List Byte} (hc : configLegal c = true)
    (himage : image.length = c.memBytes) :
    construct c image = .ok { mem := memoryOfImage image, regs := zeroedRegisters c.nregs c.regBytes, pc := 0, ir := 0,
                              runState := .running } := by
  simp [construct, hc, himage]

/-- Every slot of the zeroed file is a row of zero bytes (rule R20). -/
theorem zeroedRegisters_slot {n width i : Nat} (hi : i < n) :
    (zeroedRegisters n width).slots[i]? = some (List.replicate width 0) := by
  simp [zeroedRegisters, hi]

theorem leValue_replicate_zero (n : Nat) : leValue (List.replicate n 0) = 0 := by
  induction n with
  | zero => rfl
  | succ n ih => rw [List.replicate_succ, leValue, ih]; rfl

theorem zeroedRegisters_byte {n width i k : Nat} (hi : i < n) (hk : k < width) :
    (zeroedRegisters n width).byte i k = some 0 := by
  rw [RegFile.byte_of_slot (zeroedRegisters_slot hi), List.getElem?_replicate, if_pos hk]

theorem zeroedRegisters_read {n width i : Nat} (hi : i < n) (hw : 8 ≤ width) :
    (zeroedRegisters n width).read i = some 0 := by
  simp only [RegFile.read, zeroedRegisters_slot hi, List.length_replicate, hw, if_true, List.take_replicate,
    leValue_replicate_zero]
  rfl

/-- Settles O35. -/
theorem constructionGivesTheResetState : Obligations.ConstructionGivesTheResetState := by
  intro c image hmod hmax hslots hwidth himage
  have hc : configLegal c = true := (configLegal_iff c).mpr ⟨hmod, hmax, hslots, hwidth⟩
  refine ⟨_, construct_of_legal hc himage, himage, read_memoryOfImage image,
    fun i k hi hk => zeroedRegisters_byte hi hk, fun i hi => zeroedRegisters_read hi hwidth, ?_, rfl, rfl, rfl⟩
  simp [zeroedRegisters]

/-- Settles O36: an image of unlisted bytes lists no cell. -/
theorem resetIsConstructionOverZeroImage : Obligations.ResetIsConstructionOverZeroImage := by
  have hmem : memoryOfImage (List.replicate 1024 0) = State.reset.mem :=
    congrArg₂ Memory.mk List.length_replicate (cellsOfImage_replicate 0 1024)
  have hc : configLegal Config.reference = true := by decide
  have hlength : (List.replicate 1024 (0 : Byte)).length = Config.reference.memBytes := List.length_replicate
  rw [Obligations.ResetIsConstructionOverZeroImage, construct_of_legal hc hlength, hmem]
  rfl

/-- A legal state, by its parts (rules R4, R7). -/
theorem legal_iff (s : State) :
    s.legal = true ↔ configLegal s.config = true ∧ ∀ slot ∈ s.regs.slots, slot.length = s.regs.width := by
  simp only [State.legal, Bool.and_eq_true, List.all_eq_true, beq_iff_eq]

/-- A constructed machine has the configuration it was constructed with (rule R4 (d)). -/
theorem construct_config {c : Config} {image : List Byte} {s : State} (h : construct c image = .ok s) :
    s.config = c := by
  obtain ⟨-, himage, rfl⟩ := construct_spec h
  simp [State.config, memoryOfImage, zeroedRegisters, himage]

/-- A constructed machine has the invariant. -/
theorem construct_inv {c : Config} {image : List Byte} {s : State} (h : construct c image = .ok s) :
    s.inv = true := by
  have hconfig := construct_config h
  obtain ⟨hc, -, rfl⟩ := construct_spec h
  have hslots : ∀ slot ∈ (zeroedRegisters c.nregs c.regBytes).slots, slot.length = c.regBytes := fun slot hslot => by
    rw [List.eq_of_mem_replicate hslot, List.length_replicate]
  have hpc : (0 : U64).toNat < 2 ^ 62 := by decide
  exact (inv_iff _).mpr ⟨(legal_iff _).mpr ⟨by rw [hconfig, hc], hslots⟩, memoryOfImage_wf image, hpc, nofun⟩

/-- Settles O32: the reset state is a constructed one. -/
theorem invariantHoldsAtReset : Obligations.InvariantHoldsAtReset := construct_inv resetIsConstructionOverZeroImage

/-! ### Preload -/

/-- A slot that can be written, and the file after the write (rule R8). -/
theorem RegFile.write_eq_some_iff {r r' : RegFile} {i : Nat} {v : U64} : r.write i v = some r' ↔
    ∃ slot, r.slots[i]? = some slot ∧ 8 ≤ slot.length ∧
      r' = { r with slots := r.slots.set i (leBytes 8 v.toNat ++ slot.drop 8) } := by
  constructor
  · intro h
    simp only [RegFile.write] at h
    split at h
    · split at h
      · cases h
        exact ⟨_, ‹_›, ‹_›, rfl⟩
      · cases h
    · cases h
  · rintro ⟨slot, hslot, h8, rfl⟩
    simp [RegFile.write, hslot, h8]

/-- A register write leaves the bytes of its slot from 8 up (rule R8). -/
theorem RegFile.byte_write_of_ge {r r' : RegFile} {i : Nat} {v : U64} (h : r.write i v = some r') {k : Nat}
    (hk : 8 ≤ k) : r'.byte i k = r.byte i k := by
  obtain ⟨slot, hslot, -, rfl⟩ := RegFile.write_eq_some_iff.mp h
  have hi : i < r.slots.length := (List.getElem?_eq_some_iff.mp hslot).1
  rw [RegFile.byte_of_slot (List.getElem?_set_self hi), RegFile.byte_of_slot hslot,
    List.getElem?_append_right (by simpa using hk), length_leBytes, List.getElem?_drop, Nat.add_sub_cancel' hk]

/-- A register write leaves every other slot (rule R8). -/
theorem RegFile.byte_write_of_ne {r r' : RegFile} {i : Nat} {v : U64} (h : r.write i v = some r') {j : Nat}
    (hj : j ≠ i) (k : Nat) : r'.byte j k = r.byte j k := by
  obtain ⟨-, hslots, -, -⟩ := RegFile.write_spec h
  simp only [RegFile.byte, hslots j hj]

/-- A register write keeps the shape of the file, so a legal machine stays legal (rules R4 (d), R7). -/
theorem legal_of_regs_write {s : State} {r : RegFile} {i : Nat} {v : U64} (h : s.regs.write i v = some r)
    (hl : s.legal = true) : State.legal { s with regs := r } = true := by
  obtain ⟨hc, hslots⟩ := (legal_iff s).mp hl
  obtain ⟨-, -, hwidth, hlength⟩ := RegFile.write_spec h
  have hconfig : State.config { s with regs := r } = s.config := by simp only [State.config, hwidth, hlength]
  refine (legal_iff _).mpr ⟨by rw [hconfig, hc], fun slot' hslot' => ?_⟩
  obtain ⟨slot, hslot, h8, rfl⟩ := RegFile.write_eq_some_iff.mp h
  obtain hold | rfl := List.mem_or_eq_of_mem_set hslot'
  · exact hslots slot' hold
  · have hwas : slot.length = s.regs.width := hslots slot (List.mem_of_getElem? hslot)
    rw [List.length_append, length_leBytes, List.length_drop, hwas]
    exact Nat.add_sub_cancel' (hwas ▸ h8)

/-- A preload is a register write and nothing else (rule R9 (e)). -/
theorem preload_eq_ok_iff {i : Nat} {v : U64} {s t : State} :
    preload i v s = .ok t ↔ ∃ r, s.regs.write i v = some r ∧ t = { s with regs := r } := by
  constructor
  · intro h
    simp only [preload] at h
    split at h
    · cases h
      exact ⟨_, ‹_›, rfl⟩
    · cases h
  · rintro ⟨r, hr, rfl⟩
    simp only [preload, hr]

/-- Every slot of a legal machine can be written (rules R4 (b), R7). -/
theorem regs_write_isSome {s : State} (hl : s.legal = true) {i : Nat} (v : U64) (hi : i < s.regs.slots.length) :
    ∃ r, s.regs.write i v = some r := by
  obtain ⟨-, -, -, hwidth, hslots⟩ := legal_spec hl
  have hlength := hslots _ (List.getElem_mem hi)
  exact ⟨_, RegFile.write_eq_some_iff.mpr ⟨s.regs.slots[i], List.getElem?_eq_getElem hi, by omega, rfl⟩⟩

/-- Settles O37. -/
theorem preloadSetsOneSlot : Obligations.PreloadSetsOneSlot := by
  intro s i v hl hi
  obtain ⟨r, hr⟩ := regs_write_isSome hl v hi
  obtain ⟨hread, -, -, -⟩ := RegFile.write_spec hr
  exact ⟨{ s with regs := r }, preload_eq_ok_iff.mpr ⟨r, hr, rfl⟩, hread, fun k hk => RegFile.byte_of_read hread hk,
    fun k hk => RegFile.byte_write_of_ge hr hk, fun j k hj => RegFile.byte_write_of_ne hr hj k, rfl,
    legal_of_regs_write hr hl⟩

/-- A preload keeps the invariant, which says nothing of the registers but their shape. -/
theorem preload_keeps_inv {i : Nat} {v : U64} {s t : State} (h : preload i v s = .ok t) (hinv : s.inv = true) :
    t.inv = true := by
  obtain ⟨r, hr, rfl⟩ := preload_eq_ok_iff.mp h
  obtain ⟨hl, hwf, hpc, hhalted⟩ := (inv_iff s).mp hinv
  exact (inv_iff _).mpr ⟨legal_of_regs_write hr hl, hwf, hpc, hhalted⟩

/-- Settles O33. -/
theorem invariantHoldsAfterConstructionAndPreload : Obligations.InvariantHoldsAfterConstructionAndPreload :=
  ⟨fun _ _ _ h => construct_inv h, fun _ _ _ _ hinv h => preload_keeps_inv h hinv⟩

/-! ### Placement of a word (log entry 8) -/

/-- Where the word at `pc` lies inside memory, a placement is a store of its four bytes. -/
theorem withFetchWord_spec {s : State} (w : Word) (hin : 4 * s.pc.toNat + 4 ≤ s.mem.size) :
    ∃ m, s.mem.writeBytes s.byteAddress (leBytes instrBytes w.toNat) = some m ∧
      s.withFetchWord 32 w.toNat = { s with mem := m } := by
  have hroom : s.byteAddress + (leBytes instrBytes w.toNat).length ≤ s.mem.size := by
    rw [length_leBytes]
    exact hin
  obtain ⟨m, hm⟩ := Memory.writeBytes_isSome s.mem s.byteAddress _ hroom
  exact ⟨m, hm, by simp only [State.withFetchWord, Nat.mod_eq_of_lt w.isLt, hm]⟩

/-- A byte sequence stored in a canonical memory is read back (rules R23, R26). -/
theorem Memory.readBytes_writeBytes {m m' : Memory} {addr : Nat} {bs : List Byte}
    (h : m.writeBytes addr bs = some m') (hm : m.wf = true) (hin : addr + bs.length ≤ m.size) :
    m'.readBytes addr bs.length = some bs := by
  obtain ⟨hsize, -⟩ := Memory.writeBytes_wf h hm
  refine Memory.readBytes_spec.mpr ⟨by omega, List.ext_getElem (by simp) fun k hk _ => ?_⟩
  have hread := Memory.read_writeBytes h hm (addr + k)
  rw [if_pos (by omega), Memory.read_of_lt (by omega), Nat.add_sub_cancel_left, List.getElem?_eq_getElem hk] at hread
  simpa using (Option.some.inj hread).symm

/-- Settles O39: the four bytes stored are the word fetched. -/
theorem placedWordIsTheNextInstruction : Obligations.PlacedWordIsTheNextInstruction := by
  intro s w hl hwf hr hin
  obtain ⟨m, hm, hplaced⟩ := withFetchWord_spec w hin
  obtain ⟨hsize, hwf'⟩ := Memory.writeBytes_wf hm hwf
  have hread := Memory.readBytes_writeBytes hm hwf (by rwa [length_leBytes])
  rw [length_leBytes] at hread
  have hw : State.fetchWord { s with mem := m } = some w :=
    (fetchWord_of_readBytes (s := { s with mem := m }) hread).trans (congrArg some (wordOfBytes_leBytes w))
  have hl' : State.legal { s with mem := m } = true := by
    rw [← hl]
    simp only [State.legal, State.config, hsize]
  have houtside : ∀ a, a < 4 * s.pc.toNat ∨ 4 * s.pc.toNat + 4 ≤ a → m.read a = s.mem.read a := fun a ha => by
    have hnot : ¬ (s.byteAddress ≤ a ∧ a < s.byteAddress + (leBytes instrBytes w.toNat).length) := by
      rw [length_leBytes]
      simp only [State.byteAddress, instrBytes]
      omega
    rw [Memory.read_writeBytes hm hwf, if_neg hnot]
  simp only [hplaced]
  exact ⟨trivial, hwf', hsize, houtside, step_of_fetchWord (s := { s with mem := m }) hl' hr hw⟩

end Sys2Proof.Machine

/-! SUPPORT. The loops of the two drivers: one induction principle per loop, what both loops owe to the iterated step,
and where the single-step loop waits (rules R62 to R65). -/

namespace Sys2Proof.Machine

/-! ### The loops, turn by turn -/

/-- The run-to-halt loop as an induction on its turns: one case per way a turn can go (rule R62). -/
theorem runToHalt_induction {P : Nat → State → RunReport → Prop}
    (outOfFuel : ∀ s, P 0 s (.stop .outOfFuel s []))
    (halted : ∀ n s, s.runState = .halted → P (n + 1) s (.stop (.returned .ok) s []))
    (failed : ∀ n s f, s.runState = .running → step s = .fault f → P (n + 1) s (.stop (.returned (.failed f)) s []))
    (refused : ∀ n s x, s.runState = .running → step s = .refused x → P (n + 1) s (.stop (.returned (.refused x)) s []))
    (stepped : ∀ n s s' r, s.runState = .running → step s = .next s' → P n s' r → P (n + 1) s (r.after 1 0))
    (n : Nat) (s : State) : P n s (runToHalt n s) := by
  induction n generalizing s with
  | zero => exact outOfFuel s
  | succ n ih =>
    cases hr : s.runState with
    | halted =>
      rw [runToHalt_halted n hr]
      exact halted n s hr
    | running =>
      cases hs : step s with
      | fault f =>
        rw [runToHalt_fault n hr hs]
        exact failed n s f hr hs
      | refused x =>
        rw [runToHalt_refused n hr hs]
        exact refused n s x hr hs
      | next s' =>
        rw [runToHalt_next n hr hs]
        exact stepped n s s' _ hr hs (ih s')

/-- The single-step loop as an induction on its turns (rule R63): the step of a turn is the last one, or a wait after it
ends, or a wait after it blocks. -/
theorem singleStep_induction {P : Nat → State → List TriggerEvent → RunReport → Prop}
    (outOfFuel : ∀ s q, P 0 s q (.stop .outOfFuel s q))
    (halted : ∀ n s q, s.runState = .halted → P (n + 1) s q (.stop (.returned .ok) s q))
    (failed : ∀ n s q f, s.runState = .running → step s = .fault f →
      P (n + 1) s q (.stop (.returned (.failed f)) s q))
    (refused : ∀ n s q x, s.runState = .running → step s = .refused x →
      P (n + 1) s q (.stop (.returned (.refused x)) s q))
    (lastStep : ∀ n s s' q r, s.runState = .running → step s = .next s' → s'.runState = .halted →
      P n s' q r → P (n + 1) s q (r.after 1 0))
    (resumed : ∀ n s s' q q' r, s.runState = .running → step s = .next s' → s'.runState = .running →
      waitTrigger q = some q' → P n s' q' r → P (n + 1) s q (r.after 1 1))
    (blocked : ∀ n s s' q, s.runState = .running → step s = .next s' → s'.runState = .running →
      waitTrigger q = none → P (n + 1) s q ((RunReport.stop .blocked s' q).after 1 1))
    (n : Nat) (s : State) (q : List TriggerEvent) : P n s q (singleStep n s q) := by
  induction n generalizing s q with
  | zero => exact outOfFuel s q
  | succ n ih =>
    cases hr : s.runState with
    | halted =>
      rw [singleStep_halted n q hr]
      exact halted n s q hr
    | running =>
      cases hs : step s with
      | fault f =>
        rw [singleStep_fault n q hr hs]
        exact failed n s q f hr hs
      | refused x =>
        rw [singleStep_refused n q hr hs]
        exact refused n s q x hr hs
      | next s' =>
        obtain ⟨hlast, hresumed, hblocked⟩ := singleStep_next n q hr hs
        cases hr' : s'.runState with
        | halted =>
          rw [hlast hr']
          exact lastStep n s s' q _ hr hs hr' (ih s' q)
        | running =>
          cases hq : waitTrigger q with
          | some q' =>
            rw [hresumed q' hr' hq]
            exact resumed n s s' q q' _ hr hs hr' hq (ih s' q')
          | none =>
            rw [hblocked hr' hq]
            exact blocked n s s' q hr hs hr' hq

/-- A wait cannot end exactly where no event is left (decision D15). -/
theorem waitTrigger_eq_none_iff {q : List TriggerEvent} : waitTrigger q = none ↔ q = [] := by
  match q with
  | [] => exact ⟨fun _ => rfl, fun _ => rfl⟩
  | .line _ :: _ => exact ⟨nofun, nofun⟩
  | .endOfStream :: _ => exact ⟨nofun, nofun⟩

/-- Settles O43. -/
theorem waitConsumesOneEvent : Obligations.WaitConsumesOneEvent := ⟨rfl, fun _ _ => rfl, fun _ => rfl⟩

/-! ### A run against the iterated step -/

namespace RunReport

/-- What the report of either driver, run from `s` with `fuel` turns, owes to the iterated step
(rules R62, R63, R67). -/
structure FollowsSteps (fuel : Nat) (s : State) (r : RunReport) : Prop where
  run_eq : Sys2Proof.core.run r.steps s = .next r.machine
  running_before : ∀ k, k < r.steps → ∃ t : State, Sys2Proof.core.run k s = .next t ∧ t.runState = .running
  halted_of_ok : r.ending = .returned .ok → r.machine.runState = .halted
  fault_of_failed : ∀ f, r.ending = .returned (.failed f) → r.machine.runState = .running ∧ step r.machine = .fault f
  refused_of_refused : ∀ x, r.ending = .returned (.refused x) →
    r.machine.runState = .running ∧ step r.machine = .refused x
  steps_of_outOfFuel : r.ending = .outOfFuel → r.steps = fuel
  steps_of_returned : ∀ o, r.ending = .returned o → r.steps < fuel

variable {n : Nat} {s s' : State} {r : RunReport} {q : List TriggerEvent}

theorem followsSteps_outOfFuel : FollowsSteps 0 s (stop .outOfFuel s q) :=
  ⟨core_run_zero s, nofun, nofun, nofun, nofun, fun _ => rfl, nofun⟩

theorem followsSteps_ok (h : s.runState = .halted) : FollowsSteps (n + 1) s (stop (.returned .ok) s q) :=
  ⟨core_run_zero s, nofun, fun _ => h, nofun, nofun, nofun, fun _ _ => Nat.succ_pos n⟩

theorem followsSteps_failed {f : Fault} (hr : s.runState = .running) (hs : step s = .fault f) :
    FollowsSteps (n + 1) s (stop (.returned (.failed f)) s q) :=
  ⟨core_run_zero s, nofun, nofun, fun _ h => by cases h; exact ⟨hr, hs⟩, nofun, nofun, fun _ _ => Nat.succ_pos n⟩

theorem followsSteps_refused {x : Refusal} (hr : s.runState = .running) (hs : step s = .refused x) :
    FollowsSteps (n + 1) s (stop (.returned (.refused x)) s q) :=
  ⟨core_run_zero s, nofun, nofun, nofun, fun _ h => by cases h; exact ⟨hr, hs⟩, nofun, fun _ _ => Nat.succ_pos n⟩

theorem followsSteps_blocked : FollowsSteps n s (stop .blocked s q) :=
  ⟨core_run_zero s, nofun, nofun, nofun, nofun, nofun, nofun⟩

/-- A successful step of a running machine before a run that follows the steps. -/
theorem followsSteps_after (waits : Nat) (hr : s.runState = .running) (hs : step s = .next s')
    (h : FollowsSteps n s' r) : FollowsSteps (n + 1) s (r.after 1 waits) where
  run_eq := (core_run_succ_next r.steps hs).trans h.run_eq
  running_before := fun k hk => by
    cases k with
    | zero => exact ⟨s, core_run_zero s, hr⟩
    | succ k =>
      rw [core_run_succ_next k hs]
      exact h.running_before k (Nat.lt_of_succ_lt_succ hk)
  halted_of_ok := h.halted_of_ok
  fault_of_failed := h.fault_of_failed
  refused_of_refused := h.refused_of_refused
  steps_of_outOfFuel := fun he => congrArg (· + 1) (h.steps_of_outOfFuel he)
  steps_of_returned := fun o he => Nat.succ_lt_succ (h.steps_of_returned o he)

end RunReport

open RunReport

theorem runToHalt_followsSteps (n : Nat) (s : State) : (runToHalt n s).FollowsSteps n s :=
  runToHalt_induction (P := fun n s r => r.FollowsSteps n s)
    (outOfFuel := fun _ => followsSteps_outOfFuel)
    (halted := fun _ _ hh => followsSteps_ok hh)
    (failed := fun _ _ _ hr hs => followsSteps_failed hr hs)
    (refused := fun _ _ _ hr hs => followsSteps_refused hr hs)
    (stepped := fun _ _ _ _ hr hs ih => followsSteps_after 0 hr hs ih) n s

theorem singleStep_followsSteps (n : Nat) (s : State) (q : List TriggerEvent) :
    (singleStep n s q).FollowsSteps n s :=
  singleStep_induction (P := fun n s _ r => r.FollowsSteps n s)
    (outOfFuel := fun _ _ => followsSteps_outOfFuel)
    (halted := fun _ _ _ hh => followsSteps_ok hh)
    (failed := fun _ _ _ _ hr hs => followsSteps_failed hr hs)
    (refused := fun _ _ _ _ hr hs => followsSteps_refused hr hs)
    (lastStep := fun _ _ _ _ _ hr hs _ ih => followsSteps_after 0 hr hs ih)
    (resumed := fun _ _ _ _ _ _ hr hs _ _ ih => followsSteps_after 1 hr hs ih)
    (blocked := fun _ _ _ _ hr hs _ _ => followsSteps_after 1 hr hs followsSteps_blocked) n s q

/-- Run-to-halt has no trigger channel: it never waits (rule R62). -/
theorem runToHalt_never_waits (n : Nat) (s : State) :
    (runToHalt n s).ending ≠ .blocked ∧ (runToHalt n s).waits = 0 ∧ (runToHalt n s).triggers = [] :=
  runToHalt_induction (P := fun _ _ r => r.ending ≠ .blocked ∧ r.waits = 0 ∧ r.triggers = [])
    (outOfFuel := fun _ => ⟨nofun, rfl, rfl⟩)
    (halted := fun _ _ _ => ⟨nofun, rfl, rfl⟩)
    (failed := fun _ _ _ _ _ => ⟨nofun, rfl, rfl⟩)
    (refused := fun _ _ _ _ _ => ⟨nofun, rfl, rfl⟩)
    (stepped := fun _ _ _ _ _ _ ih => ih) n s

/-- Settles O40. -/
theorem runToHaltStepsUntilHaltedOrFailure : Obligations.RunToHaltStepsUntilHaltedOrFailure := by
  intro n s r
  have h : r.FollowsSteps n s := runToHalt_followsSteps n s
  obtain ⟨hblocked, hwaits, htriggers⟩ := runToHalt_never_waits n s
  refine ⟨h.run_eq, h.running_before, h.halted_of_ok, h.fault_of_failed, h.refused_of_refused, h.steps_of_outOfFuel,
    fun hfuel => ?_, hblocked, hwaits, htriggers⟩
  cases he : r.ending with
  | returned o => exact h.steps_of_returned o he
  | blocked => exact absurd he hblocked
  | outOfFuel => exact absurd he hfuel

/-! ### The waits of single-step -/

/-- Two runs with the same ending, machine and number of steps. -/
def RunReport.SameRun (r r' : RunReport) : Prop :=
  r.ending = r'.ending ∧ r.machine = r'.machine ∧ r.steps = r'.steps

theorem RunReport.sameRun_stop (e : RunEnd) (s : State) (q q' : List TriggerEvent) :
    SameRun (stop e s q) (stop e s q') :=
  ⟨rfl, rfl, rfl⟩

/-- One step more on both sides, with any waits. -/
theorem RunReport.SameRun.after {r r' : RunReport} (h : SameRun r r') (waits waits' : Nat) :
    SameRun (r.after 1 waits) (r'.after 1 waits') := by
  obtain ⟨hending, hmachine, hsteps⟩ := h
  exact ⟨hending, hmachine, congrArg (· + 1) hsteps⟩

/-- Unless it blocks, single-step goes through run-to-halt's run (rule R63). -/
theorem runToHalt_sameRun_singleStep (n : Nat) (s : State) (q : List TriggerEvent) :
    (singleStep n s q).ending ≠ .blocked → (runToHalt n s).SameRun (singleStep n s q) := by
  refine singleStep_induction (P := fun n s _ r => r.ending ≠ .blocked → (runToHalt n s).SameRun r)
    ?outOfFuel ?halted ?failed ?refused ?lastStep ?resumed ?blocked n s q
  case outOfFuel => exact fun s q _ => sameRun_stop .outOfFuel s [] q
  case halted => exact fun n s q hh _ => runToHalt_halted n hh ▸ sameRun_stop _ s [] q
  case failed => exact fun n s q f hr hs _ => runToHalt_fault n hr hs ▸ sameRun_stop _ s [] q
  case refused => exact fun n s q x hr hs _ => runToHalt_refused n hr hs ▸ sameRun_stop _ s [] q
  case lastStep => exact fun n s s' q r hr hs _ ih he => runToHalt_next n hr hs ▸ (ih he).after 0 0
  case resumed => exact fun n s s' q q' r hr hs _ _ ih he => runToHalt_next n hr hs ▸ (ih he).after 0 1
  case blocked => exact fun _ _ _ _ _ _ _ _ he => absurd rfl he

/-- The waits of a single-step run from `s`: one after each step but the one that halted the machine (rule R63). -/
structure RunReport.WaitsAfterSteps (s : State) (r : RunReport) : Prop where
  of_running : r.machine.runState = .running → r.waits = r.steps
  of_halting : s.runState = .running → r.machine.runState = .halted → r.waits + 1 = r.steps
  of_halted : s.runState = .halted → r.machine.runState = .halted ∧ r.waits = 0 ∧ r.steps = 0

theorem RunReport.waitsAfterSteps_stop (e : RunEnd) (s : State) (q : List TriggerEvent) :
    WaitsAfterSteps s (stop e s q) :=
  ⟨fun _ => rfl, fun hr hh => (nomatch hr.symm.trans hh), fun hh => ⟨hh, rfl, rfl⟩⟩

theorem singleStep_waitsAfterSteps (n : Nat) (s : State) (q : List TriggerEvent) :
    (singleStep n s q).WaitsAfterSteps s := by
  refine singleStep_induction (P := fun _ s _ r => r.WaitsAfterSteps s)
    ?outOfFuel ?halted ?failed ?refused ?lastStep ?resumed ?blocked n s q
  case outOfFuel => exact fun s q => waitsAfterSteps_stop _ s q
  case halted => exact fun _ s q _ => waitsAfterSteps_stop _ s q
  case failed => exact fun _ s q _ _ _ => waitsAfterSteps_stop _ s q
  case refused => exact fun _ s q _ _ _ => waitsAfterSteps_stop _ s q
  case lastStep =>
    intro n s s' q r hr hs hh' ih
    obtain ⟨hhalted, hwaits, hsteps⟩ := ih.of_halted hh'
    exact ⟨fun hm => (nomatch hhalted.symm.trans hm), fun _ _ => by simp [hwaits, hsteps],
      fun hh => nomatch hr.symm.trans hh⟩
  case resumed =>
    intro n s s' q q' r hr hs hr' _ ih
    exact ⟨fun hm => congrArg (· + 1) (ih.of_running hm), fun _ hm => congrArg (· + 1) (ih.of_halting hr' hm),
      fun hh => nomatch hr.symm.trans hh⟩
  case blocked =>
    intro n s s' q hr hs hr' _
    exact ⟨fun _ => rfl, fun _ hm => (nomatch hr'.symm.trans hm), fun hh => nomatch hr.symm.trans hh⟩

/-- A single-step run that ends on a halted machine, whether it halted it or found it so. -/
theorem RunReport.WaitsAfterSteps.waits_of_halted {s : State} {r : RunReport} (h : r.WaitsAfterSteps s)
    (hm : r.machine.runState = .halted) : r.waits = r.steps - 1 := by
  cases hr : s.runState with
  | running => exact Nat.eq_sub_of_add_eq (h.of_halting hr hm)
  | halted =>
    obtain ⟨-, hwaits, hsteps⟩ := h.of_halted hr
    rw [hwaits, hsteps]

/-- Where single-step blocks: after a step that left the machine `Running`, at a wait with no event (rule R63,
decision D15). -/
theorem singleStep_blocked_spec (n : Nat) (s : State) (q : List TriggerEvent) :
    (singleStep n s q).ending = .blocked →
      0 < (singleStep n s q).steps ∧ (singleStep n s q).steps ≤ n ∧ (singleStep n s q).machine.runState = .running ∧
        (singleStep n s q).triggers = [] := by
  refine singleStep_induction (P := fun n _ _ r => r.ending = .blocked →
      0 < r.steps ∧ r.steps ≤ n ∧ r.machine.runState = .running ∧ r.triggers = [])
    ?outOfFuel ?halted ?failed ?refused ?lastStep ?resumed ?blocked n s q
  case outOfFuel => exact fun _ _ => nofun
  case halted => exact fun _ _ _ _ => nofun
  case failed => exact fun _ _ _ _ _ _ => nofun
  case refused => exact fun _ _ _ _ _ _ => nofun
  case lastStep =>
    intro n s s' q r _ _ _ ih he
    obtain ⟨-, hle, hrest⟩ := ih he
    exact ⟨Nat.succ_pos _, Nat.succ_le_succ hle, hrest⟩
  case resumed =>
    intro n s s' q q' r _ _ _ _ ih he
    obtain ⟨-, hle, hrest⟩ := ih he
    exact ⟨Nat.succ_pos _, Nat.succ_le_succ hle, hrest⟩
  case blocked =>
    intro n s s' q _ _ hr' hq _
    exact ⟨Nat.succ_pos _, Nat.succ_le_succ (Nat.zero_le n), hr', waitTrigger_eq_none_iff.mp hq⟩

/-- Settles O42. -/
theorem singleStepIsRunToHaltWithWaits : Obligations.SingleStepIsRunToHaltWithWaits := by
  intro n s q r
  have h : r.FollowsSteps n s := singleStep_followsSteps n s q
  have hwaits : r.WaitsAfterSteps s := singleStep_waitsAfterSteps n s q
  refine ⟨h.run_eq, h.running_before, runToHalt_sameRun_singleStep n s q,
    fun he => hwaits.waits_of_halted (h.halted_of_ok he), fun f he => ?_, fun x he => ?_, fun he => ?_, fun he => ?_⟩
  · obtain ⟨hr, -⟩ := h.fault_of_failed f he
    exact hwaits.of_running hr
  · obtain ⟨hr, hs⟩ := h.refused_of_refused x he
    exact ⟨hwaits.of_running hr, hr, hs⟩
  · obtain ⟨hpos, hle, hr, htriggers⟩ := singleStep_blocked_spec n s q he
    exact ⟨hwaits.of_running hr, hpos, hle, hr, htriggers⟩
  · have hsteps := h.steps_of_outOfFuel he
    exact ⟨hsteps, fun hr => (hwaits.of_running hr).trans hsteps, fun hh => hsteps ▸ hwaits.waits_of_halted hh⟩

end Sys2Proof.Machine

/-! SUPPORT. The trigger events of a single-step run, a run that never ends, and the block with its host (rules R61, R64
to R69, R87). -/

namespace Sys2Proof.Machine

/-! ### The events a run consumes -/

/-- The events of a single-step run over `q` (decision D15): what is left, and how the waits compare with the events. -/
structure RunReport.ConsumesEvents (q : List TriggerEvent) (r : RunReport) : Prop where
  triggers_eq : r.triggers = q.drop (min r.waits (q.idxOf .endOfStream))
  waits_of_blocked : r.ending = .blocked → .endOfStream ∉ q ∧ r.waits = q.length + 1
  waits_le : r.ending ≠ .blocked → .endOfStream ∉ q → r.waits ≤ q.length

namespace RunReport

variable {r : RunReport} {q : List TriggerEvent}

theorem consumesEvents_stop {e : RunEnd} (s : State) (q : List TriggerEvent) (he : e ≠ .blocked) :
    ConsumesEvents q (stop e s q) :=
  ⟨by simp [stop], fun h => absurd h he, fun _ _ => Nat.zero_le _⟩

theorem consumesEvents_after_blocked (s : State) : ConsumesEvents [] ((stop .blocked s []).after 1 1) :=
  ⟨by simp [stop], fun _ => ⟨nofun, rfl⟩, fun h => absurd rfl h⟩

/-- A step without a wait. -/
theorem ConsumesEvents.after_step (h : ConsumesEvents q r) : ConsumesEvents q (r.after 1 0) :=
  ⟨h.triggers_eq, h.waits_of_blocked, h.waits_le⟩

/-- A wait that a line ends. -/
theorem ConsumesEvents.after_line (c : List Byte) (h : ConsumesEvents q r) :
    ConsumesEvents (.line c :: q) (r.after 1 1) where
  triggers_eq := by
    have hne : TriggerEvent.line c ≠ .endOfStream := nofun
    rw [after_triggers, after_waits, List.idxOf_cons_ne _ hne, Nat.succ_min_succ, List.drop_succ_cons]
    exact h.triggers_eq
  waits_of_blocked := fun he => by
    obtain ⟨hmem, hwaits⟩ := h.waits_of_blocked he
    exact ⟨by simpa using hmem, congrArg (· + 1) hwaits⟩
  waits_le := fun he hmem => Nat.succ_le_succ (h.waits_le he (by simpa using hmem))

/-- A wait that the end of the stream ends. -/
theorem ConsumesEvents.after_endOfStream (h : ConsumesEvents (.endOfStream :: q) r) :
    ConsumesEvents (.endOfStream :: q) (r.after 1 1) where
  triggers_eq := by simpa using h.triggers_eq
  waits_of_blocked := fun he => absurd List.mem_cons_self (h.waits_of_blocked he).1
  waits_le := fun _ hmem => absurd List.mem_cons_self hmem

end RunReport

open RunReport

theorem singleStep_consumesEvents (n : Nat) (s : State) (q : List TriggerEvent) :
    (singleStep n s q).ConsumesEvents q := by
  refine singleStep_induction (P := fun _ _ q r => r.ConsumesEvents q)
    ?outOfFuel ?halted ?failed ?refused ?lastStep ?resumed ?blocked n s q
  case outOfFuel => exact fun s q => consumesEvents_stop s q nofun
  case halted => exact fun _ s q _ => consumesEvents_stop s q nofun
  case failed => exact fun _ s q _ _ _ => consumesEvents_stop s q nofun
  case refused => exact fun _ s q _ _ _ => consumesEvents_stop s q nofun
  case lastStep => exact fun _ _ _ _ _ _ _ _ ih => ih.after_step
  case resumed =>
    intro n s s' q q' r _ _ _ hq ih
    obtain ⟨c, rfl⟩ | ⟨rest, rfl, rfl⟩ := waitTrigger_cases hq
    · exact ih.after_line c
    · exact ih.after_endOfStream
  case blocked =>
    intro n s s' q _ _ _ hq
    rw [waitTrigger_eq_none_iff.mp hq]
    exact consumesEvents_after_blocked s'

/-- Settles O50. -/
theorem singleStepConsumesOneEventPerWait : Obligations.SingleStepConsumesOneEventPerWait := by
  intro n s q r
  have h : r.ConsumesEvents q := singleStep_consumesEvents n s q
  exact ⟨h.triggers_eq, h.waits_of_blocked, h.waits_le⟩

/-- Settles O44: an ended stream satisfies every wait, so the run does not block. -/
theorem endedStreamRunsAsRunToHalt : Obligations.EndedStreamRunsAsRunToHalt := by
  intro n s q hmem
  have hnever : (singleStep n s q).ending ≠ .blocked := fun he =>
    absurd hmem ((singleStep_consumesEvents n s q).waits_of_blocked he).1
  obtain ⟨hending, hmachine, hsteps⟩ := runToHalt_sameRun_singleStep n s q hnever
  exact ⟨hending.symm, hmachine.symm, hsteps.symm⟩

/-! ### A jump to itself -/

/-- A jump to the word it stands on changes `ir` alone (rules R14, R60). -/
theorem step_jump_to_itself {s : State} {a : U64} (hl : s.legal = true) (hr : s.runState = .running)
    (ho : s.mem.read (4 * s.pc.toNat + 3) = some 0x04) (ha : s.regs.read 0 = some a)
    (htarget : a.toNat / 4 = s.pc.toNat) : ∃ w, step s = .next (s.latch w) := by
  obtain ⟨w, hw, hopcode⟩ := fetchWord_of_read_opcode ho
  have hpc : instrIndex a = s.pc := BitVec.eq_of_toNat_eq ((instrIndex_toNat a).trans htarget)
  refine ⟨w, ?_⟩
  rw [step_eq_setPc hl hr hw hopcode ha, hpc]
  rfl

/-- Settles O46: after the step the machine is again on its jump. -/
theorem jumpToItselfNeverReturns : Obligations.JumpToItselfNeverReturns := by
  intro s a hl hr ho ha htarget n
  induction n generalizing s with
  | zero => exact ⟨rfl, rfl, rfl⟩
  | succ n ih =>
    obtain ⟨w, hs⟩ := step_jump_to_itself hl hr ho ha htarget
    obtain ⟨hending, hsteps, hpc⟩ := ih (s.latch w) hl hr ho ha htarget
    rw [runToHalt_next n hr hs]
    exact ⟨hending, congrArg (· + 1) hsteps, hpc⟩

/-! ### The block -/

/-- The block moves to `b'` with nothing from the host in between. -/
def Block.MovesTo (b b' : Block) : Prop := ∃ k, Block.ticks k b = b'

theorem Block.MovesTo.refl (b : Block) : b.MovesTo b := ⟨0, rfl⟩

/-- One move before others. -/
theorem Block.MovesTo.head {b c b' : Block} (htick : b.tick = c) (h : c.MovesTo b') : b.MovesTo b' := by
  obtain ⟨k, hk⟩ := h
  exact ⟨k + 1, by rw [Block.ticks, htick, hk]⟩

/-- The block that runs driver `d` at the head of its loop. -/
def Block.atHead (d : Driver) (s : State) (q : List TriggerEvent) : Block :=
  { machine := s, phase := .stepping d, triggers := q }

/-- The block whose driver has returned. -/
def Block.afterReturn (o : RunOutcome) (s : State) (q : List TriggerEvent) : Block :=
  { machine := s, phase := .returned o, triggers := q }

/-- The block whose single-step driver waits. -/
def Block.inWait (s : State) (q : List TriggerEvent) : Block := { machine := s, phase := .waiting, triggers := q }

@[simp] theorem phaseAfterStep_runToHalt (s : State) : phaseAfterStep .runToHalt s = .stepping .runToHalt := by
  simp [phaseAfterStep]

theorem phaseAfterStep_singleStep_running {s : State} (h : s.runState = .running) :
    phaseAfterStep .singleStep s = .waiting := by
  simp [phaseAfterStep, h]

theorem phaseAfterStep_of_halted {s : State} (d : Driver) (h : s.runState = .halted) :
    phaseAfterStep d s = .stepping d := by
  simp [phaseAfterStep, h]

namespace Block

section
variable {d : Driver} {s s' : State} {q q' : List TriggerEvent}

theorem tick_atHead_halted (hh : s.runState = .halted) : (atHead d s q).tick = afterReturn .ok s q := by
  obtain ⟨hhalted, -⟩ := tick_stepping (b := atHead d s q) rfl
  exact hhalted hh

theorem tick_atHead_fault {f : Fault} (hr : s.runState = .running) (hs : step s = .fault f) :
    (atHead d s q).tick = afterReturn (.failed f) s q := by
  obtain ⟨-, hrunning⟩ := tick_stepping (b := atHead d s q) rfl
  obtain ⟨-, hfault, -⟩ := hrunning hr
  exact hfault f hs

theorem tick_atHead_refused {x : Refusal} (hr : s.runState = .running) (hs : step s = .refused x) :
    (atHead d s q).tick = afterReturn (.refused x) s q := by
  obtain ⟨-, hrunning⟩ := tick_stepping (b := atHead d s q) rfl
  obtain ⟨-, -, hrefused⟩ := hrunning hr
  exact hrefused x hs

theorem tick_atHead_next (hr : s.runState = .running) (hs : step s = .next s') :
    (atHead d s q).tick = { machine := s', phase := phaseAfterStep d s', triggers := q } := by
  obtain ⟨-, hrunning⟩ := tick_stepping (b := atHead d s q) rfl
  obtain ⟨hnext, -⟩ := hrunning hr
  exact hnext s' hs

theorem tick_inWait (hq : waitTrigger q = some q') : (inWait s q).tick = atHead .singleStep s q' := by
  simp [tick, inWait, atHead, hq]

theorem tick_inWait_nil : (inWait s []).tick = inWait s [] := rfl
end

/-- The block does what the run-to-halt loop does, turn by turn (rule R62). -/
theorem atHead_runToHalt_movesTo (n : Nat) (s : State) (q : List TriggerEvent) :
    ∀ o, (runToHalt n s).ending = .returned o →
      (atHead .runToHalt s q).MovesTo (afterReturn o (runToHalt n s).machine q) := by
  refine runToHalt_induction (P := fun _ s r => ∀ o, r.ending = .returned o →
      (atHead .runToHalt s q).MovesTo (afterReturn o r.machine q))
    ?outOfFuel ?halted ?failed ?refused ?stepped n s
  case outOfFuel => exact fun _ _ => nofun
  case halted =>
    rintro n s hh _ ⟨⟩
    exact .head (tick_atHead_halted hh) (.refl _)
  case failed =>
    rintro n s f hr hs _ ⟨⟩
    exact .head (tick_atHead_fault hr hs) (.refl _)
  case refused =>
    rintro n s x hr hs _ ⟨⟩
    exact .head (tick_atHead_refused hr hs) (.refl _)
  case stepped =>
    intro n s s' r hr hs ih o he
    refine .head (tick_atHead_next hr hs) ?_
    rw [phaseAfterStep_runToHalt]
    exact ih o he

/-- Where the run of a single-step loop leaves the block: at its return, or waiting without an event. -/
def ReachesEndOf (b : Block) (r : RunReport) : Prop :=
  (∀ o, r.ending = .returned o → b.MovesTo (afterReturn o r.machine r.triggers)) ∧
    (r.ending = .blocked → b.MovesTo (inWait r.machine []))

/-- One move before others, and with it a step and its waits on the report. -/
theorem ReachesEndOf.head {b c : Block} {r : RunReport} (htick : b.tick = c) (h : c.ReachesEndOf r)
    (steps waits : Nat) : b.ReachesEndOf (r.after steps waits) := by
  obtain ⟨hreturned, hblocked⟩ := h
  exact ⟨fun o he => .head htick (hreturned o he), fun he => .head htick (hblocked he)⟩

/-- A move to the driver's return. -/
theorem reachesEndOf_stop {b : Block} {o : RunOutcome} {s : State} {q : List TriggerEvent}
    (htick : b.tick = afterReturn o s q) : b.ReachesEndOf (.stop (.returned o) s q) :=
  ⟨by rintro _ ⟨⟩; exact .head htick (.refl _), nofun⟩

/-- The block does what the single-step loop does, turn by turn (rule R63); a wait is a move of its own. -/
theorem atHead_singleStep_reachesEndOf (n : Nat) (s : State) (q : List TriggerEvent) :
    (atHead .singleStep s q).ReachesEndOf (singleStep n s q) := by
  refine singleStep_induction (P := fun _ s q r => (atHead .singleStep s q).ReachesEndOf r)
    ?outOfFuel ?halted ?failed ?refused ?lastStep ?resumed ?blocked n s q
  case outOfFuel => exact fun _ _ => ⟨nofun, nofun⟩
  case halted => exact fun _ _ _ hh => reachesEndOf_stop (tick_atHead_halted hh)
  case failed => exact fun _ _ _ _ hr hs => reachesEndOf_stop (tick_atHead_fault hr hs)
  case refused => exact fun _ _ _ _ hr hs => reachesEndOf_stop (tick_atHead_refused hr hs)
  case lastStep =>
    intro n s s' q r hr hs hh' ih
    have htick : (atHead .singleStep s q).tick = atHead .singleStep s' q := by
      rw [tick_atHead_next hr hs, phaseAfterStep_of_halted _ hh', atHead]
    exact ih.head htick 1 0
  case resumed =>
    intro n s s' q q' r hr hs hr' hq ih
    have htick : (atHead .singleStep s q).tick = inWait s' q := by
      rw [tick_atHead_next hr hs, phaseAfterStep_singleStep_running hr', inWait]
    exact (ih.head (tick_inWait hq) 0 0).head htick 1 1
  case blocked =>
    intro n s s' q hr hs hr' hq
    have htick : (atHead .singleStep s q).tick = inWait s' q := by
      rw [tick_atHead_next hr hs, phaseAfterStep_singleStep_running hr', inWait]
    rw [waitTrigger_eq_none_iff.mp hq] at htick ⊢
    exact ⟨nofun, fun _ => .head htick (.refl _)⟩

/-- A start while no driver runs (rules R61, R69). -/
theorem hostAct_start {b : Block} (d : Driver) (q : List TriggerEvent) (h : b.quiet = true) :
    b.hostAct (.start d q) = .ok (atHead d b.machine (b.triggers ++ q)) := by
  simp [hostAct, h, atHead]

end Block

open Block

/-- Settles O47. -/
theorem blockRunsTheDriverLoops : Obligations.BlockRunsTheDriverLoops := by
  intro n b q hquiet
  obtain ⟨hreturned, hblocked⟩ := atHead_singleStep_reachesEndOf n b.machine (b.triggers ++ q)
  exact ⟨⟨_, hostAct_start .runToHalt q hquiet, atHead_runToHalt_movesTo n b.machine _⟩,
    ⟨_, hostAct_start .singleStep q hquiet, hreturned, hblocked⟩⟩

/-- A block that waits without an event does not move (rules R65, R87). -/
theorem Block.ticks_of_tick_eq {b : Block} (h : b.tick = b) (n : Nat) : Block.ticks n b = b := by
  induction n with
  | zero => rfl
  | succ n ih => rw [Block.ticks, h, ih]

/-- Settles O48: with no event a wait cannot end, and after any event sent there is one to end it. -/
theorem pausedDriverResumesOnAnyTrigger : Obligations.PausedDriverResumesOnAnyTrigger := by
  rintro ⟨s, phase, q⟩ ⟨⟩ ⟨⟩
  refine ⟨ticks_of_tick_eq tick_inWait_nil, fun e => ⟨inWait s [e], rfl, rfl, ?_⟩⟩
  have hresumes : ∃ q', waitTrigger [e] = some q' := by
    cases e with
    | line c => exact ⟨[], rfl⟩
    | endOfStream => exact ⟨[.endOfStream], rfl⟩
  obtain ⟨q', hq⟩ := hresumes
  rw [tick_inWait hq]
  exact ⟨rfl, rfl⟩

/-- The two phases a driver can be in after a step: single-step waits exactly if the machine is still `Running`
(rule R63). -/
theorem phaseAfterStep_cases (d : Driver) (s : State) :
    (phaseAfterStep d s = .waiting ↔ d = .singleStep ∧ s.runState = .running) ∧
      (phaseAfterStep d s = .waiting ∨ phaseAfterStep d s = .stepping d) := by
  cases d with
  | runToHalt => simp
  | singleStep =>
    cases hr : s.runState with
    | running => simp [phaseAfterStep_singleStep_running hr]
    | halted => simp [phaseAfterStep_of_halted _ hr]

/-- Settles O49. -/
theorem activeDriverIsNeverStalled : Obligations.ActiveDriverIsNeverStalled := by
  rintro ⟨s, phase, q⟩ d ⟨⟩ hl
  refine ⟨fun hr => ?_, fun hh => tick_atHead_halted hh⟩
  obtain ⟨s', hs⟩ | ⟨hs, -⟩ := step_of_legal_running hl hr
  · obtain ⟨hwaits, hphase⟩ := phaseAfterStep_cases d s'
    have htick := tick_atHead_next (d := d) (q := q) hr hs
    rw [atHead] at htick
    rw [htick]
    exact .inl ⟨s', hs, rfl, rfl, hwaits, hphase⟩
  · exact .inr ⟨hs, tick_atHead_fault hr hs⟩

/-- Settles O38. -/
theorem hostAccessesInTheirTurn : Obligations.HostAccessesInTheirTurn := by
  rintro ⟨s, phase, q⟩
  refine ⟨fun _ => rfl, ?_, ?_, ?_, ?_⟩
  · rintro (⟨d, hstepping⟩ | hwaiting)
    · cases hstepping
      exact ⟨fun _ _ => rfl, fun _ _ => rfl, fun _ _ => rfl⟩
    · cases hwaiting
      exact ⟨fun _ _ => rfl, fun _ _ => rfl, fun _ _ => rfl⟩
  · rintro ⟨o, ⟨⟩⟩ i v
    rfl
  · rintro ⟨⟩ hl i v hi
    obtain ⟨r, hr⟩ := regs_write_isSome hl v hi
    have hpreload := preload_eq_ok_iff.mpr ⟨r, hr, rfl⟩
    exact ⟨{ s with regs := r }, hpreload, by simp only [Block.hostAct, hpreload]⟩
  · rintro (hidle | ⟨o, hreturned⟩) d q'
    · cases hidle
      exact hostAct_start d q' rfl
    · cases hreturned
      exact hostAct_start d q' rfl

/-! ### The program counter from construction on -/

/-- Settles O34: the moves of `pc` are those of a running step, a failing step leaves every driver where it was, and the
invariant, which construction and preload give, bounds `pc`. -/
theorem pcMovesInFourWaysAndStaysBounded : Obligations.PcMovesInFourWaysAndStaysBounded := by
  refine ⟨fun s t hs hr => ?_, fun s hl hr => ?_, fun c image s t u v hs ht hu => ?_⟩
  · obtain ⟨w, hw, hcases⟩ := step_running_pc hr hs
    rw [read_opcode_of_fetchWord hw]
    simpa using hcases
  · obtain hnext | ⟨hs, -⟩ := step_of_legal_running hl hr
    · exact .inl hnext
    · refine .inr ⟨hs, fun n q => ⟨?_, ?_⟩, fun d q => ?_⟩
      · rw [runToHalt_fault n hr hs]
        rfl
      · rw [singleStep_fault n q hr hs]
        rfl
      · exact congrArg (fun b : Block => b.machine.pc) (tick_atHead_fault hr hs)
  · have hinv : u.inv = true := reaches_keeps step_keeps_inv hu (preload_keeps_inv ht (construct_inv hs))
    obtain ⟨-, -, hpc, -⟩ := (inv_iff u).mp hinv
    exact le_max_of_le_right (Nat.le_sub_one_of_lt hpc)

end Sys2Proof.Machine
